-- ==== Sys2Proof/Syntax.lean ====
section
/-! DEFINITION. The ten operations of PCF-CORE, one constructor per row of spec/opcode_table.json (R3, R61). -/

namespace Sys2Proof

/-- An operation. A command has no operand field: every operand comes from a fixed register (R65). -/
inductive Instr where
  /-- B2BITS: bytes to bits (R80). -/
  | b2bits
  /-- BITS2B: bits to bytes (R83). -/
  | bits2b
  /-- PARSEBE: parse 8 bytes big-endian (R86). -/
  | parsebe
  /-- PARSELE: parse 8 bytes little-endian (R88). -/
  | parsele
  /-- REVB: reverse byte order (R90). -/
  | revb
  /-- SELA: oblivious select of one byte-array entry (R100). -/
  | sela
  /-- SELS: oblivious select of one scalar (R105). -/
  | sels
  /-- XOR: byte-wise exclusive or of two blocks (R120). -/
  | xor
  /-- MUX: branch-free choice between two blocks (R130). -/
  | mux
  /-- INCW: increment the counter word of a counter block (R140). -/
  | incw
  deriving DecidableEq, Repr

end Sys2Proof
end

