-- ==== Sys2Proof/Word.lean ====
section
/-! DEFINITION. The word types of PCF-CORE: the 8-bit lane and the 32-bit command word (00_scope.md R7, R10; 30_encoding.md R60). -/

namespace Sys2Proof

/-- One byte lane of A, B, TB and RESULT: `LANE_W = 8` bits (R7, R10). -/
abbrev Byte := BitVec 8

/-- A command word, the value of one write of CMD (R29, R60). -/
abbrev CommandWord := BitVec 32

end Sys2Proof
end

