-- ==== Sys2Proof/WellFormed.lean ====
section
/-! DEFINITION. Well-formedness: which command words are legal (R60 to R63). An operation itself has no field that could be
ill formed (R65). -/

namespace Sys2Proof

/-- The reserved field `RSV = w[31:4]` is 0 (R62). -/
def wellFormedReserved (w : CommandWord) : Bool :=
  w.extractLsb' 4 28 == 0#28

/-- The operation field `OP = w[3:0]` is one of the ten codes 0x1 to 0xA (R61). -/
def wellFormedOpcode (w : CommandWord) : Bool :=
  decide (1 ≤ (w.extractLsb' 0 4).toNat) && decide ((w.extractLsb' 0 4).toNat ≤ 10)

/-- The legal command words (R63). -/
def wellFormedWord (w : CommandWord) : Bool :=
  wellFormedReserved w && wellFormedOpcode w

/-- Every operation is well formed: a command has no immediate, register specifier or mode bit to check (R65). -/
def wellFormed : Instr → Bool
  | .b2bits => true
  | .bits2b => true
  | .parsebe => true
  | .parsele => true
  | .revb => true
  | .sela => true
  | .sels => true
  | .xor => true
  | .mux => true
  | .incw => true

end Sys2Proof
end

