-- ==== Sys2Proof/Decode.lean ====
section
/-! DEFINITION. Decoding of a command word, total on all 2^32 words, and the encoder (R60 to R64, R68). -/

namespace Sys2Proof

/-- What a command word decodes to: an operation, or the single illegal verdict of R68. -/
inductive Verdict where
  | operation (i : Instr)
  | illegal
  deriving DecidableEq, Repr

/-- The field `OP = w[3:0]` (R60). -/
def opField (w : CommandWord) : BitVec 4 := w.extractLsb' 0 4

/-- The field `RSV = w[31:4]` (R60). -/
def rsvField (w : CommandWord) : BitVec 28 := w.extractLsb' 4 28

/-- The operation codes of R61; the reserved codes select none. -/
def operationOfCode : Nat → Option Instr
  | 0x1 => some .b2bits
  | 0x2 => some .bits2b
  | 0x3 => some .parsebe
  | 0x4 => some .parsele
  | 0x5 => some .revb
  | 0x6 => some .sela
  | 0x7 => some .sels
  | 0x8 => some .xor
  | 0x9 => some .mux
  | 0xA => some .incw
  | _ => none

/-- The decoder: a word with `RSV != 0` or a reserved code is illegal, whatever else it holds (R62, R64, R68). -/
def decode (w : CommandWord) : Verdict :=
  if rsvField w ≠ 0#28 then .illegal
  else
    match operationOfCode (opField w).toNat with
    | some i => .operation i
    | none => .illegal

/-- The code of an operation (R61). -/
def codeOf : Instr → BitVec 4
  | .b2bits => 0x1#4
  | .bits2b => 0x2#4
  | .parsebe => 0x3#4
  | .parsele => 0x4#4
  | .revb => 0x5#4
  | .sela => 0x6#4
  | .sels => 0x7#4
  | .xor => 0x8#4
  | .mux => 0x9#4
  | .incw => 0xA#4

/-- The command word of an operation: its code under a reserved field of 0 (R60, R62). -/
def encode (i : Instr) : CommandWord := 0#28 ++ codeOf i

/-- The command word made of an opcode-table row's bits, bit 0 least significant, the bits above `nbits` zero. A command is
one 32-bit value written to CMD: it has no bytes in memory and no byte order (R41, R54; log 16). -/
def tableWord (nbits w : Nat) : CommandWord := BitVec.ofNat 32 (w % 2 ^ nbits)

/-- The operation the decoder reads from an opcode-table row's bits. -/
def decodeTableWord (nbits w : Nat) : Option Instr :=
  match decode (tableWord nbits w) with
  | .operation i => some i
  | .illegal => none

end Sys2Proof
end

