-- ==== Sys2Proof/Config.lean ====
section
/-! DEFINITION. The implementation parameters of R7: the fixed ones as constants, the two OPEN ones as a record that an
instance carries. -/

namespace Sys2Proof

/-- `BLOCK_BYTES`: bytes in a Block (R7). -/
abbrev Config.blockBytes : Nat := 16
/-- `PARSE_BYTES`: input width of PARSEBE and PARSELE (R7). -/
abbrev Config.parseBytes : Nat := 8
/-- `CTR_FIRST`: first byte of the counter field of a counter block (R7). -/
abbrev Config.ctrFirst : Nat := 12
/-- `XOR_W`: the configured block width of XOR, in bytes (R7, R121). -/
abbrev Config.xorW : Nat := 16
/-- `MUX_W`: the width of MUX is that of XOR (R7, R132). -/
abbrev Config.muxW : Nat := Config.xorW
/-- The least capacity R7 allows an instance. -/
abbrev Config.minMaxLanes : Nat := 128

/-- The two OPEN parameters of R7, fixed for one instance of the block (log 3). -/
structure Config.Params where
  /-- `SCALAR_W`: width in bits of one scalar of TS and of a scalar RESULT (D6). -/
  scalarW  : Nat
  /-- `MAX_LANES`: most lanes in any one buffer, most entries in any table (D8). -/
  maxLanes : Nat
  deriving DecidableEq, Repr

/-- The bounds R7 puts on the OPEN parameters. -/
def Config.paramsOk (p : Config.Params) : Bool :=
  decide (1 ≤ p.scalarW) && decide (Config.minMaxLanes ≤ p.maxLanes)

/-- The parameters of the instance that 95_test_vectors.md computes with. DESIGN CHOICE (log 3): the spec leaves both open;
only `State.reset` uses these two numbers and no statement rests on them. unsafe for a claim about `State.reset` alone. -/
def Config.vectorParams : Config.Params := { scalarW := 8, maxLanes := 128 }

end Sys2Proof
end

