-- ==== Sys2Proof/Machine/State.lean ====
section
/-! DEFINITION. The state of one PCF-CORE instance and of the host that drives it (10_state.md, 60_exceptions.md R170), the
reasons a step can stop, and the state after reset. -/

namespace Sys2Proof.Machine

/-- The six operand registers (R22 to R28). -/
inductive OperandReg where
  | A | B | TB | TS | IDX | SEL
  deriving DecidableEq, Repr

/-- The whole contents of one operand register, as a host write sends it and a host read gets it back (R34, R170). -/
inductive OperandValue where
  /-- A byte buffer for A (R22). -/
  | a (lanes : List Byte)
  /-- A byte buffer for B (R23). -/
  | b (lanes : List Byte)
  /-- A table of byte arrays for TB (R25). -/
  | tb (entries : List (List Byte))
  /-- A table of scalars for TS (R26), each a number below `2^SCALAR_W` (log 4). -/
  | ts (scalars : List Nat)
  /-- The 32-bit index (R27). -/
  | idx (v : BitVec 32)
  /-- The 8-bit selector (R28). -/
  | sel (v : BitVec 8)
  deriving DecidableEq, Repr

/-- The register RESULT: its kind with its payload (R30). -/
inductive Result where
  /-- KIND = NONE: nothing written since reset. -/
  | none
  /-- KIND = LANES. -/
  | lanes (bytes : List Byte)
  /-- KIND = U64. -/
  | u64 (v : BitVec 64)
  /-- KIND = SCALAR: a number below `2^SCALAR_W` (log 4). -/
  | scalar (v : Nat)
  deriving DecidableEq, Repr

/-- The field RESULT.KIND (R30). -/
inductive ResultKind where
  | NONE | LANES | U64 | SCALAR
  deriving DecidableEq, Repr

/-- One entry of an access trace: the operand lane a command reads (R47). -/
inductive LaneRead where
  /-- `A[i]` -/
  | a (i : Nat)
  /-- `B[i]` -/
  | b (i : Nat)
  /-- `TB.E[i][j]` -/
  | tb (i j : Nat)
  /-- `TS[i]` -/
  | ts (i : Nat)
  /-- `IDX` -/
  | idx
  /-- `SEL` -/
  | sel
  deriving DecidableEq, Repr

/-- What a host read gets back (R170). -/
inductive Observation where
  /-- The 32-bit STATUS register (R31). -/
  | status (v : BitVec 32)
  /-- RESULT, its kind and its payload (R30). -/
  | result (v : Result)
  /-- RESULT.KIND alone (R159). -/
  | kind (k : ResultKind)
  /-- An operand register (R34). -/
  | operand (v : OperandValue)
  deriving DecidableEq, Repr

/-- A host action on the instance (R69, R70, R170, R180). The last four have no move (R34, R170): the model refuses them by
name (log 9). -/
inductive HostAction where
  /-- `wr X, v`: write a whole operand register. -/
  | wr (v : OperandValue)
  /-- `cmd w`: write CMD, which runs a command. -/
  | wrCMD (w : CommandWord)
  /-- `rd STATUS` -/
  | rdSTATUS
  /-- `rd RESULT`: kind and payload. -/
  | rdRESULT
  /-- A read of RESULT.KIND alone, always defined (R159; log 10). -/
  | rdKIND
  /-- `rd X`: read a whole operand register. -/
  | rd (x : OperandReg)
  /-- `mov A, RESULT` (R70). -/
  | movA
  /-- `mov B, RESULT` (R70). -/
  | movB
  /-- The reset event, by the host or the platform (R180). -/
  | reset
  /-- A write of STATUS: no move. -/
  | wrSTATUS (v : BitVec 32)
  /-- A write of RESULT: no move. -/
  | wrRESULT (v : Result)
  /-- A read of CMD: no move. -/
  | rdCMD
  /-- A write of one lane of an operand register: no move. -/
  | wrLane (x : OperandReg) (i : Nat) (v : Byte)
  deriving DecidableEq, Repr

/-- What a host read addresses, in the model fault UnwrittenRead (R159). -/
inductive ReadTarget where
  | operand (x : OperandReg)
  | resultPayload
  deriving DecidableEq, Repr

/-- The model faults of the spec (60_exceptions.md, section 2). They are recorded and stop nothing: 93_implementation_defined.md
says of the treatment `fault` that "the model records a fault" (log 6). -/
inductive ModelFault where
  /-- UnwrittenOperand(op, X), R158: recorded by every operation's operand check, at the first register of `Reads(op)` that is
  unwritten. -/
  | unwrittenOperand (op : Instr) (x : OperandReg)
  /-- UnwrittenRead(X), R159: recorded by a host read (or a mov) of an unwritten operand register or of RESULT's payload while
  its kind is NONE. -/
  | unwrittenRead (x : ReadTarget)
  deriving DecidableEq, Repr

/-- The reasons a step can stop the machine with a fault: there is none. The block has no trap (R150, R160), its errors are codes
in STATUS, and the model faults of R158 and R159 go into the fault record of the state. -/
inductive Fault where
  deriving DecidableEq, Repr

/-- Why a host action has no move (R34, R70, R170). -/
inductive NoMove where
  /-- A host write beyond `MAX_LANES`, or of a scalar that `SCALAR_W` bits cannot hold. -/
  | beyondCapacity
  /-- A host write of STATUS. -/
  | writeOfSTATUS
  /-- A host write of RESULT. -/
  | writeOfRESULT
  /-- A host read of CMD. -/
  | readOfCMD
  /-- A host write of a single lane. -/
  | writeOfLane
  /-- `mov X, RESULT` while RESULT.KIND is U64 or SCALAR. -/
  | movOfNonLanes
  /-- An action on an instance that the platform does not hold (R166). -/
  | noSuchUnit
  deriving DecidableEq, Repr

/-- The reasons a step is refused. -/
inductive Refusal where
  /-- An operation with no meaning in this model: raised by exec's refused arms only, of which there is none. safe. -/
  | notModelled (mnemonic : String)
  /-- A host action that the spec gives no move (R34, R170, K15): raised by the host actions of Machine/HostActions.lean and by
  Machine/Platform.lean, never by an operation. unsafe only for a host that does those things, which is outside the spec
  (D22; log 9). -/
  | noMove (why : NoMove)
  deriving DecidableEq, Repr

/-- One instance of the block with its host. The registers are those of R20 in the shape of R38: `none` is the spec's own
mark *unwritten* (R35; log 5). CMD holds no state (R29). -/
structure State where
  /-- The OPEN parameters of the instance (R7; log 3). Nothing writes them. -/
  params     : Config.Params
  /-- A (R22). -/
  a          : Option (List Byte)
  /-- B (R23). -/
  b          : Option (List Byte)
  /-- TB (R25). -/
  tb         : Option (List (List Byte))
  /-- TS (R26). -/
  ts         : Option (List Nat)
  /-- IDX (R27). -/
  idx        : Option (BitVec 32)
  /-- SEL (R28). -/
  sel        : Option (BitVec 8)
  /-- STATUS.CODE, the bits 2:0 of STATUS (R31). -/
  statusCode : BitVec 3
  /-- RESULT (R30). -/
  result     : Result
  /-- The access trace of the last command (R47); the model's own field, read by no operation (log 8). -/
  trace      : List LaneRead
  /-- The host actions still to be performed, oldest first (R50, R170); the host's own (log 1). -/
  pending    : List HostAction
  /-- The fault record (R172, R180, K19): the model faults of R158 and R159, oldest first. No action clears it, a reset neither, and no
  operation reads it (log 6). -/
  faults     : List ModelFault
  /-- What the host got back from its reads, oldest first (R170); the host's own (log 7). -/
  observed   : List Observation
  deriving DecidableEq, Repr

/-- The registers of an instance with parameters `p` right after reset (R37, R180): every operand register unwritten, STATUS.CODE
0 (IDLE), RESULT.KIND NONE. The fields that are not registers are empty (DESIGN CHOICE, log 1, 6, 7, 8). -/
def State.resetOf (p : Config.Params) : State where
  params := p
  a := none
  b := none
  tb := none
  ts := none
  idx := none
  sel := none
  statusCode := 0#3
  result := .none
  trace := []
  pending := []
  faults := []
  observed := []

/-- The machine right after reset (R37, R181), quiescent and with nothing to do. Its parameters are a DESIGN CHOICE (log 3). -/
def State.reset : State := State.resetOf Config.vectorParams

end Sys2Proof.Machine
end

