-- ==== Sys2Proof/Machine/Flags.lean ====
section
/-! DEFINITION. STATUS: its codes and its 32-bit reading (R31, R32). The block has no other flag (R33). -/

namespace Sys2Proof.Machine

/-- IDLE: no command has completed since reset (R32). -/
abbrev codeIdle : BitVec 3 := 0#3
/-- OK: the last command succeeded and wrote RESULT (R32). -/
abbrev codeOk : BitVec 3 := 1#3
/-- LENGTH_ERROR (R32, R151). -/
abbrev codeLengthError : BitVec 3 := 2#3
/-- RANGE_ERROR (R32, R151). -/
abbrev codeRangeError : BitVec 3 := 3#3
/-- ILLEGAL_COMMAND (R32, R64). -/
abbrev codeIllegal : BitVec 3 := 4#3

/-- The 32-bit STATUS register: CODE in bits 2:0, bits 31:3 reading 0 (R31). -/
def statusWord (s : State) : BitVec 32 := 0#29 ++ s.statusCode

/-- RESULT.KIND (R30). -/
def resultKind : Result → ResultKind
  | .none => .NONE
  | .lanes _ => .LANES
  | .u64 _ => .U64
  | .scalar _ => .SCALAR

end Sys2Proof.Machine
end

