-- ==== Sys2Proof/Machine/Ops.lean ====
section
/-! DEFINITION. The shared operations: sweeping the lanes of an operand with the access trace (R47), the arithmetic
primitives of R12, the outcome of an operation and its commit (R66, R152, R153), the illegal command (R64), the recording of
a model fault (R158, R159), and the operand registers as a host reads and writes them (R34). -/

namespace Sys2Proof.Machine

/-- Lanes that were read, with the trace of the reads. -/
structure Sweep (α : Type) where
  value : α
  trace : List LaneRead
  deriving DecidableEq, Repr

/-- Reads every lane of a buffer in ascending order; `mk i` names lane `i`, and `i` is the lane it stands at (R13, R47). Which
lanes are read depends on the buffer's length alone. -/
def sweepLanes {α : Type} (mk : Nat → LaneRead) : Nat → List α → Sweep (List α)
  | _, [] => { value := [], trace := [] }
  | i, x :: xs =>
    let rest := sweepLanes mk (i + 1) xs
    { value := x :: rest.value, trace := mk i :: rest.trace }

/-- Reads every lane of every entry of TB, entry by entry, from entry `i` on (R47). -/
def sweepTable : Nat → List (List Byte) → Sweep (List (List Byte))
  | _, [] => { value := [], trace := [] }
  | i, e :: es =>
    let first := sweepLanes (LaneRead.tb i) 0 e
    let rest := sweepTable (i + 1) es
    { value := first.value :: rest.value, trace := first.trace ++ rest.trace }

/-- `bit(v, k) = (v div 2^k) mod 2` (R12). -/
def bitOf (v k : Nat) : Nat := v / 2 ^ k % 2

/-- `eq(i, k)`: 1 when `i = k` and 0 otherwise (R12). -/
def eqIndicator (i k : Nat) : Nat := if i = k then 1 else 0

/-- `BE(x)`: the first byte is the most significant (R12). -/
def bigEndian : List Byte → Nat
  | [] => 0
  | x :: xs => x.toNat * 2 ^ (8 * xs.length) + bigEndian xs

/-- `LE(x)`: the first byte is the least significant (R12). -/
def littleEndian : List Byte → Nat
  | [] => 0
  | x :: xs => x.toNat + 2 ^ 8 * littleEndian xs

/-- What an operation returns to Execute (R66, R152): a value, or one of the two errors, with the access trace it performed.
A LengthError is decided from lengths alone and reads no lane, so it carries no trace (R49). -/
inductive OpRun where
  | ok (v : Result) (trace : List LaneRead)
  | lengthError
  | rangeError (trace : List LaneRead)
  deriving DecidableEq, Repr

/-- The commit of Execute (R66): on success RESULT and CODE 1, on an error the CODE alone (R152, R153). This is the one place
where a command's outcome reaches the registers. -/
def commit (s : State) : OpRun → State
  | .ok v tr => { s with result := v, statusCode := codeOk, trace := tr }
  | .lengthError => { s with statusCode := codeLengthError, trace := [] }
  | .rangeError tr => { s with statusCode := codeRangeError, trace := tr }

/-- An illegal command word: CODE 4, no operand read, RESULT unchanged (R64, R49). -/
def illegalCommand (s : State) : State := { s with statusCode := codeIllegal, trace := [] }

/-- A model fault is recorded; nothing else changes (R158, R159, R172; log 6). The one operation that writes the fault record. -/
def recordFault (f : ModelFault) (s : State) : State := { s with faults := s.faults ++ [f] }

/-- A command that meets the unwritten operand register `x`: the fault UnwrittenOperand(op, X) is recorded, STATUS and RESULT are not
written (R66, R158, D-DEC-6), and no lane is read (log 8). -/
def operandFault (op : Instr) (x : OperandReg) (s : State) : State :=
  { recordFault (.unwrittenOperand op x) s with trace := [] }

/-- The contents of an operand register, `none` when it is unwritten (R35). -/
def readOperand (s : State) : OperandReg → Option OperandValue
  | .A => s.a.map .a
  | .B => s.b.map .b
  | .TB => s.tb.map .tb
  | .TS => s.ts.map .ts
  | .IDX => s.idx.map .idx
  | .SEL => s.sel.map .sel

/-- The written mark of an operand register (R35). -/
def isWritten (s : State) (x : OperandReg) : Bool := (readOperand s x).isSome

/-- The register a value is for. -/
def regOf : OperandValue → OperandReg
  | .a _ => .A
  | .b _ => .B
  | .tb _ => .TB
  | .ts _ => .TS
  | .idx _ => .IDX
  | .sel _ => .SEL

/-- Replaces a whole operand register and marks it written (R34, R35). -/
def writeOperand (s : State) : OperandValue → State
  | .a v => { s with a := some v }
  | .b v => { s with b := some v }
  | .tb v => { s with tb := some v }
  | .ts v => { s with ts := some v }
  | .idx v => { s with idx := some v }
  | .sel v => { s with sel := some v }

/-- What an instance can hold: at most MAX_LANES lanes in a buffer and entries in a table, scalars of SCALAR_W bits (R22 to
R26, R34). -/
def fits (p : Config.Params) : OperandValue → Bool
  | .a v => decide (v.length ≤ p.maxLanes)
  | .b v => decide (v.length ≤ p.maxLanes)
  | .tb v => decide (v.length ≤ p.maxLanes) && v.all fun e => decide (e.length ≤ p.maxLanes)
  | .ts v => decide (v.length ≤ p.maxLanes) && v.all fun x => decide (x < 2 ^ p.scalarW)
  | .idx _ => true
  | .sel _ => true

end Sys2Proof.Machine
end

