-- ==== Sys2Proof/Machine/Operands.lean ====
section
/-! DEFINITION. The operand check of Execute (R66): which registers an operation reads (R67), and the fetch of each, which
records the fault of an unwritten one (R158). -/

namespace Sys2Proof.Machine

/-- `Reads(op)`, in the table's order (R67). -/
def reads : Instr → List OperandReg
  | .b2bits => [.A]
  | .bits2b => [.A]
  | .parsebe => [.A]
  | .parsele => [.A]
  | .revb => [.A]
  | .sela => [.TB, .IDX]
  | .sels => [.TS, .IDX]
  | .xor => [.A, .B]
  | .mux => [.A, .B, .SEL]
  | .incw => [.A]

/-- The first register of `Reads(op)` that is unwritten: the one the operand check names (R66, R158). -/
def firstUnwritten (s : State) (op : Instr) : Option OperandReg :=
  (reads op).find? fun x => !isWritten s x

/-- One register of the operand check: its contents go on to `k`; at an unwritten one the command ends with the fault
UnwrittenOperand recorded (R66, R158). -/
def fetch {α : Type} (op : Instr) (x : OperandReg) (s : State) (r : Option α)
    (k : α → Host.Outcome State Fault Refusal) : Host.Outcome State Fault Refusal :=
  match r with
  | some v => k v
  | none => .next (operandFault op x s)

end Sys2Proof.Machine
end

