-- ==== Sys2Proof/Machine/ArrayMux.lean ====
section
/-! DEFINITION. The ArrayMux operation MUX (43_mux.md). -/

namespace Sys2Proof.Machine

/-- `A[j] XOR ((s * (A[j] XOR B[j])) mod 2^8)` (R130). -/
def muxLane (sel x y : Byte) : Byte := x ^^^ (sel * (x ^^^ y))

/-- Op[MUX] (R130 to R132): both operands are read whatever the selector holds (R134). -/
def opMux (a b : List Byte) (sel : BitVec 8) : OpRun :=
  if a.length ≠ Config.muxW ∨ b.length ≠ Config.muxW then .lengthError
  else
    let ra := sweepLanes .a 0 a
    let rb := sweepLanes .b 0 b
    let tr := .sel :: (ra.trace ++ rb.trace)
    if 1 < sel.toNat then .rangeError tr
    else .ok (.lanes (List.zipWith (muxLane sel) ra.value rb.value)) tr

/-- MUX (R130 to R132). -/
def execMux (s : State) : Host.Outcome State Fault Refusal :=
  fetch .mux .A s s.a fun a => fetch .mux .B s s.b fun b => fetch .mux .SEL s s.sel fun sel =>
    .next (commit s (opMux a b sel))

end Sys2Proof.Machine
end

