-- ==== Sys2Proof/Machine/BlockXor.lean ====
section
/-! DEFINITION. The BlockXor operation XOR (42_xor.md). -/

namespace Sys2Proof.Machine

/-- Op[XOR] (R120, R121). -/
def opXor (a b : List Byte) : OpRun :=
  if a.length ≠ Config.xorW ∨ b.length ≠ Config.xorW then .lengthError
  else
    let ra := sweepLanes .a 0 a
    let rb := sweepLanes .b 0 b
    .ok (.lanes (List.zipWith (fun x y => x ^^^ y) ra.value rb.value)) (ra.trace ++ rb.trace)

/-- XOR (R120, R121). -/
def execXor (s : State) : Host.Outcome State Fault Refusal :=
  fetch .xor .A s s.a fun a => fetch .xor .B s s.b fun b => .next (commit s (opXor a b))

end Sys2Proof.Machine
end

