-- ==== Sys2Proof/Machine/Codec.lean ====
section
/-! DEFINITION. The BitByteCodec operations B2BITS, BITS2B, PARSEBE, PARSELE and REVB (40_codec.md). -/

namespace Sys2Proof.Machine

/-- The eight bit lanes of a byte, most significant first (R43, R80). -/
def byteToBits (v : Byte) : List Byte :=
  (List.range 8).map fun m => BitVec.ofNat 8 (bitOf v.toNat (7 - m))

/-- The byte of eight bit lanes, the first the most significant: the sum of `(b mod 2) * 2^(7-m)` (R83). -/
def bitsToByte (b0 b1 b2 b3 b4 b5 b6 b7 : Byte) : Byte :=
  BitVec.ofNat 8
    (b0.toNat % 2 * 2 ^ 7 + b1.toNat % 2 * 2 ^ 6 + b2.toNat % 2 * 2 ^ 5 + b3.toNat % 2 * 2 ^ 4
      + b4.toNat % 2 * 2 ^ 3 + b5.toNat % 2 * 2 ^ 2 + b6.toNat % 2 * 2 ^ 1 + b7.toNat % 2 * 2 ^ 0)

/-- Packs a bit vector eight lanes at a time (R83); its length is a multiple of 8 wherever it is called. -/
def packBits : List Byte → List Byte
  | b0 :: b1 :: b2 :: b3 :: b4 :: b5 :: b6 :: b7 :: rest =>
    bitsToByte b0 b1 b2 b3 b4 b5 b6 b7 :: packBits rest
  | _ => []

/-- Some lane of a bit vector is outside 0 and 1 (R84). -/
def hasBadBit (bits : List Byte) : Bool := bits.any fun b => decide (1 < b.toNat)

/-- Op[B2BITS] (R80, R81). -/
def opB2bits (maxLanes : Nat) (a : List Byte) : OpRun :=
  if maxLanes < 8 * a.length then .lengthError
  else
    let r := sweepLanes .a 0 a
    .ok (.lanes (r.value.flatMap byteToBits)) r.trace

/-- Op[BITS2B] (R83, R84): the length is checked first, the lanes are all read before the verdict on them. -/
def opBits2b (a : List Byte) : OpRun :=
  if a.length % 8 ≠ 0 then .lengthError
  else
    let r := sweepLanes .a 0 a
    if hasBadBit r.value then .rangeError r.trace
    else .ok (.lanes (packBits r.value)) r.trace

/-- Op[PARSEBE] (R86). -/
def opParsebe (a : List Byte) : OpRun :=
  if a.length ≠ Config.parseBytes then .lengthError
  else
    let r := sweepLanes .a 0 a
    .ok (.u64 (BitVec.ofNat 64 (bigEndian r.value))) r.trace

/-- Op[PARSELE] (R88). -/
def opParsele (a : List Byte) : OpRun :=
  if a.length ≠ Config.parseBytes then .lengthError
  else
    let r := sweepLanes .a 0 a
    .ok (.u64 (BitVec.ofNat 64 (littleEndian r.value))) r.trace

/-- Op[REVB] (R90). -/
def opRevb (a : List Byte) : OpRun :=
  let r := sweepLanes .a 0 a
  .ok (.lanes r.value.reverse) r.trace

/-- B2BITS (R80 to R82). -/
def execB2bits (s : State) : Host.Outcome State Fault Refusal :=
  fetch .b2bits .A s s.a fun a => .next (commit s (opB2bits s.params.maxLanes a))

/-- BITS2B (R83, R84). -/
def execBits2b (s : State) : Host.Outcome State Fault Refusal :=
  fetch .bits2b .A s s.a fun a => .next (commit s (opBits2b a))

/-- PARSEBE (R86). -/
def execParsebe (s : State) : Host.Outcome State Fault Refusal :=
  fetch .parsebe .A s s.a fun a => .next (commit s (opParsebe a))

/-- PARSELE (R88). -/
def execParsele (s : State) : Host.Outcome State Fault Refusal :=
  fetch .parsele .A s s.a fun a => .next (commit s (opParsele a))

/-- REVB (R90). -/
def execRevb (s : State) : Host.Outcome State Fault Refusal :=
  fetch .revb .A s s.a fun a => .next (commit s (opRevb a))

end Sys2Proof.Machine
end

