-- ==== Sys2Proof/Machine/Counter.lean ====
section
/-! DEFINITION. The CounterIncrementer operation INCW (44_counter.md). -/

namespace Sys2Proof.Machine

/-- The four bytes of a 32-bit word, most significant first: `[c[31:24], c[23:16], c[15:8], c[7:0]]` (R140). -/
def wordBytes (c : BitVec 32) : List Byte :=
  [c.extractLsb' 24 8, c.extractLsb' 16 8, c.extractLsb' 8 8, c.extractLsb' 0 8]

/-- The next counter block: the first 12 bytes copied, the last four incremented as a big-endian word modulo `2^32` (R140). -/
def nextCounterBlock (a : List Byte) : List Byte :=
  a.take Config.ctrFirst
    ++ wordBytes (BitVec.ofNat 32 ((bigEndian (a.drop Config.ctrFirst) + 1) % 2 ^ 32))

/-- Op[INCW] (R140). -/
def opIncw (a : List Byte) : OpRun :=
  if a.length ≠ Config.blockBytes then .lengthError
  else
    let r := sweepLanes .a 0 a
    .ok (.lanes (nextCounterBlock r.value)) r.trace

/-- INCW (R140, R141). -/
def execIncw (s : State) : Host.Outcome State Fault Refusal :=
  fetch .incw .A s s.a fun a => .next (commit s (opIncw a))

end Sys2Proof.Machine
end

