-- ==== Sys2Proof/Machine/Select.lean ====
section
/-! DEFINITION. The ObliviousSelector operations SELA and SELS (41_select.md). Both visit every entry whatever the index
holds (R104). -/

namespace Sys2Proof.Machine

/-- `acc[j] <- (acc[j] + w * entry[j]) mod 2^8`, lane by lane (R100). -/
def addWeighted (w : Nat) (acc entry : List Byte) : List Byte :=
  List.zipWith (fun x y => x + BitVec.ofNat 8 w * y) acc entry

/-- The loop of SELA over the entries from number `i` on: the accumulator and the count of hits (R100). -/
def selectEntries (k : Nat) : Nat → List (List Byte) → List Byte → Nat → List Byte × Nat
  | _, [], acc, hit => (acc, hit)
  | i, e :: es, acc, hit =>
    selectEntries k (i + 1) es (addWeighted (eqIndicator i k) acc e) (hit + eqIndicator i k)

/-- The loop of SELS over the scalars from number `i` on, modulo `2^w` (R105). -/
def selectScalars (w k : Nat) : Nat → List Nat → Nat → Nat → Nat × Nat
  | _, [], acc, hit => (acc, hit)
  | i, x :: xs, acc, hit =>
    selectScalars w k (i + 1) xs ((acc + eqIndicator i k * x) % 2 ^ w) (hit + eqIndicator i k)

/-- `M`, the length of the first entry, 0 for an empty table (R100). -/
def entryLength (t : List (List Byte)) : Nat :=
  match t with
  | [] => 0
  | e :: _ => e.length

/-- Two entries of the table differ in length (R101). -/
def isRagged (t : List (List Byte)) : Bool := t.any fun e => e.length != entryLength t

/-- Op[SELA] (R100, R101, R103). -/
def opSela (t : List (List Byte)) (k : BitVec 32) : OpRun :=
  if isRagged t then .lengthError
  else
    let r := sweepTable 0 t
    let sum := selectEntries k.toNat 0 r.value (List.replicate (entryLength t) 0#8) 0
    if sum.2 = 0 then .rangeError (.idx :: r.trace)
    else .ok (.lanes sum.1) (.idx :: r.trace)

/-- Op[SELS] (R103, R105). -/
def opSels (scalarW : Nat) (t : List Nat) (k : BitVec 32) : OpRun :=
  let r := sweepLanes .ts 0 t
  let sum := selectScalars scalarW k.toNat 0 r.value 0 0
  if sum.2 = 0 then .rangeError (.idx :: r.trace)
  else .ok (.scalar sum.1) (.idx :: r.trace)

/-- SELA (R100 to R103). -/
def execSela (s : State) : Host.Outcome State Fault Refusal :=
  fetch .sela .TB s s.tb fun t => fetch .sela .IDX s s.idx fun k => .next (commit s (opSela t k))

/-- SELS (R103, R105). -/
def execSels (s : State) : Host.Outcome State Fault Refusal :=
  fetch .sels .TS s s.ts fun t => fetch .sels .IDX s s.idx fun k =>
    .next (commit s (opSels s.params.scalarW t k))

end Sys2Proof.Machine
end

