-- ==== Sys2Proof/Machine/Dispatch.lean ====
section
/-! DEFINITION. One arm per operation: its meaning (R61, R66). -/

namespace Sys2Proof.Machine

def exec (i : Instr) (s : State) : Host.Outcome State Fault Refusal :=
  match i with
  | .b2bits => Sys2Proof.Machine.execB2bits s
  | .bits2b => Sys2Proof.Machine.execBits2b s
  | .parsebe => Sys2Proof.Machine.execParsebe s
  | .parsele => Sys2Proof.Machine.execParsele s
  | .revb => Sys2Proof.Machine.execRevb s
  | .sela => Sys2Proof.Machine.execSela s
  | .sels => Sys2Proof.Machine.execSels s
  | .xor => Sys2Proof.Machine.execXor s
  | .mux => Sys2Proof.Machine.execMux s
  | .incw => Sys2Proof.Machine.execIncw s

end Sys2Proof.Machine
end

