-- ==== Sys2Proof/Machine/HostActions.lean ====
section
/-! DEFINITION. What each host action does (R34, R46, R70, R159, R170, R180), the write of CMD among them (R66). -/

namespace Sys2Proof.Machine

/-- Execute(w), R66: decode; an illegal word only sets STATUS.CODE; a legal one runs its operation, whose meaning makes the
operand check and the commit. -/
def execute (w : CommandWord) (s : State) : Host.Outcome State Fault Refusal :=
  match decode w with
  | .operation i => exec i s
  | .illegal => .next (illegalCommand s)

/-- What a host read gets back is added to the host's record; no register changes (R46). -/
def observe (o : Observation) (s : State) : State := { s with observed := s.observed ++ [o] }

/-- A host write of a whole operand register; a value the instance cannot hold has no move (R34, R170). -/
def hostWrite (v : OperandValue) (s : State) : Host.Outcome State Fault Refusal :=
  if fits s.params v then .next (writeOperand s v) else .refused (.noMove .beyondCapacity)

/-- A host read of an operand register; at an unwritten one the host gets nothing and the fault UnwrittenRead is
recorded (R35, R159). -/
def hostRead (x : OperandReg) (s : State) : Host.Outcome State Fault Refusal :=
  match readOperand s x with
  | some v => .next (observe (.operand v) s)
  | none => .next (recordFault (.unwrittenRead (.operand x)) s)

/-- A host read of RESULT, kind and payload; while the kind is NONE the host gets nothing and the fault UnwrittenRead
is recorded (R35, R159). -/
def hostReadResult (s : State) : Host.Outcome State Fault Refusal :=
  match s.result with
  | .none => .next (recordFault (.unwrittenRead .resultPayload) s)
  | r => .next (observe (.result r) s)

/-- `mov X, RESULT` (R70): the read of RESULT now, and the write of its lanes as the host's very next action; `mk` says which of A
and B is written (log 11). On an unwritten RESULT it faults as the read, with nothing to write. -/
def hostMov (mk : List Byte → OperandValue) (s : State) : Host.Outcome State Fault Refusal :=
  match s.result with
  | .none => .next (recordFault (.unwrittenRead .resultPayload) s)
  | .lanes v => .next { observe (.result (.lanes v)) s with pending := .wr (mk v) :: s.pending }
  | .u64 _ => .refused (.noMove .movOfNonLanes)
  | .scalar _ => .refused (.noMove .movOfNonLanes)

/-- The reset event (R37, R180): every register to its reset value. A recorded fault stays recorded
(R180, K19). The parameters, the host's script and the host's record are no registers and stay (log 17). -/
def resetEvent (s : State) : State :=
  { State.resetOf s.params with pending := s.pending, faults := s.faults, observed := s.observed }

/-- One host action (R170). -/
def perform (act : HostAction) (s : State) : Host.Outcome State Fault Refusal :=
  match act with
  | .wr v => hostWrite v s
  | .wrCMD w => execute w s
  | .rdSTATUS => .next (observe (.status (statusWord s)) s)
  | .rdRESULT => hostReadResult s
  | .rdKIND => .next (observe (.kind (resultKind s.result)) s)
  | .rd x => hostRead x s
  | .movA => hostMov .a s
  | .movB => hostMov .b s
  | .reset => .next (resetEvent s)
  | .wrSTATUS _ => .refused (.noMove .writeOfSTATUS)
  | .wrRESULT _ => .refused (.noMove .writeOfRESULT)
  | .rdCMD => .refused (.noMove .readOfCMD)
  | .wrLane _ _ _ => .refused (.noMove .writeOfLane)

/-- The next host action, taken off the host's script before it is performed (R50). With none left the block is quiescent
and holds its registers (R168, R181; log 2). -/
def nextAction (s : State) : Host.Outcome State Fault Refusal :=
  match s.pending with
  | [] => .next s
  | act :: rest => perform act { s with pending := rest }

/-- An operand value in the shape an operation asks for, all lanes 0: used by `withFetchWord` alone (log 12). -/
def bootValue (op : Instr) : OperandReg → OperandValue
  | .A => .a (List.replicate (if op = .parsebe ∨ op = .parsele then Config.parseBytes else Config.blockBytes) 0#8)
  | .B => .b (List.replicate Config.blockBytes 0#8)
  | .TB => .tb [List.replicate Config.blockBytes 0#8]
  | .TS => .ts [0]
  | .IDX => .idx 0#32
  | .SEL => .sel 0#8

/-- The host's duty of R183 before a CMD write: each register of `Reads(op)` that is still unwritten is written (log 12). -/
def provideOperands (op : Instr) (s : State) : State :=
  (reads op).foldl (fun t x => if isWritten t x then t else writeOperand t (bootValue op x)) s

/-- The host's script with a write of the word `w` to CMD as its next action, and the operands that `w` reads written (R183). -/
def withCommand (s : State) (w : CommandWord) : State :=
  match decode w with
  | .operation i => provideOperands i { s with pending := .wrCMD w :: s.pending }
  | .illegal => { s with pending := .wrCMD w :: s.pending }

end Sys2Proof.Machine
end

