-- ==== Sys2Proof/Machine/Step.lean ====
section
/-! DEFINITION. One step of the machine: the host's next action, performed whole (R45, R50). -/

namespace Sys2Proof.Machine

/-- One step: one host action, a command among them, is one atomic step (R45, R50, R187). -/
def step (s : State) : Host.Outcome State Fault Refusal := nextAction s

/-- `s` with a command word about to be written to CMD. There is no fetch (R54): the word comes with the host's action, and the host
has by then written the operands that the command reads, as R183 asks of it (log 12). -/
def State.withFetchWord (s : State) (nbits w : Nat) : State := withCommand s (tableWord nbits w)

end Sys2Proof.Machine
end

