-- ==== Sys2Proof/Machine/Platform.lean ====
section
/-! DEFINITION. A platform of several instances (R51, R166): a list of states that share nothing, each stepped on its own. -/

namespace Sys2Proof.Machine

/-- The instances of a platform, by position; the block itself has no identifier register (R166). -/
abbrev Platform := List State

/-- One step of instance `k`: the others are not touched (R51). A model fault of one instance is recorded in that instance's own
state and the others go on (log 6). DESIGN CHOICE (log 18): a host action without a move on one instance refuses the whole platform's
step, with no platform state after it, and so does an action on an instance the platform does not hold; a fault outcome would be passed
on the same way, but no step has one. The spec does not say what such an action does to a run of several instances. -/
def stepInstance (k : Nat) (p : Platform) : Host.Outcome Platform Fault Refusal :=
  match p[k]? with
  | none => .refused (.noMove .noSuchUnit)
  | some s =>
    match step s with
    | .next t => .next (p.set k t)
    | .fault f => .fault f
    | .refused r => .refused r

end Sys2Proof.Machine
end

