-- ==== Sys2Proof/Safety.lean ====
section
/-! DEFINITION. The terms claims use: the invariant of a state, the public shape of its operands (R48), the agreement of two states on an
operation's operands (R36), and a chain of counter increments (R143). -/

namespace Sys2Proof.Machine

/-- A RESULT that an instance with parameters `p` can hold (R30). -/
def resultFits (p : Config.Params) : Result → Bool
  | .none => true
  | .lanes v => decide (v.length ≤ p.maxLanes)
  | .u64 _ => true
  | .scalar v => decide (v < 2 ^ p.scalarW)

/-- An operand register that is unwritten, or holds what an instance with parameters `p` can hold (R22 to R28). -/
def operandFits (s : State) (x : OperandReg) : Bool :=
  match readOperand s x with
  | none => true
  | some v => fits s.params v

/-- The capacities of R22, R23, R25, R26 and R34, as a claim writes them. -/
def withinCapacity (p : Config.Params) : OperandValue → Prop
  | .a v => v.length ≤ p.maxLanes
  | .b v => v.length ≤ p.maxLanes
  | .tb t => t.length ≤ p.maxLanes ∧ ∀ e ∈ t, e.length ≤ p.maxLanes
  | .ts t => t.length ≤ p.maxLanes ∧ ∀ x ∈ t, x < 2 ^ p.scalarW
  | .idx _ => True
  | .sel _ => True

/-- The invariant of every state that can be reached: legal parameters (R7), every operand register and RESULT within capacity
(R22 to R26, R30), STATUS.CODE one of the five codes the block writes (R32), RESULT.KIND NONE while no command has completed, and
not NONE once the last command succeeded (R30, R32), and every recorded UnwrittenOperand names a register its operation reads (R67,
R158). -/
structure StateInv (s : State) : Prop where
  params_ok    : Config.paramsOk s.params = true
  operands_fit : ∀ x, operandFits s x = true
  code_legal   : s.statusCode.toNat ≤ 4
  result_fits  : resultFits s.params s.result = true
  idle_none    : s.statusCode = codeIdle → s.result = .none
  ok_written   : s.statusCode = codeOk → s.result ≠ .none
  faults_named : ∀ op x, ModelFault.unwrittenOperand op x ∈ s.faults → x ∈ reads op

/-- What of the operand registers is public (R14, R48): the written marks, the lengths, the entry counts and entry lengths, and
the parameters. Lane values, IDX and SEL are not in it. -/
structure PublicShape where
  params     : Config.Params
  lenA       : Option Nat
  lenB       : Option Nat
  lensTB     : Option (List Nat)
  countTS    : Option Nat
  idxWritten : Bool
  selWritten : Bool
  deriving DecidableEq, Repr

/-- The public shape of a state. -/
def publicShape (s : State) : PublicShape where
  params := s.params
  lenA := s.a.map List.length
  lenB := s.b.map List.length
  lensTB := s.tb.map fun t => t.map List.length
  countTS := s.ts.map List.length
  idxWritten := s.idx.isSome
  selWritten := s.sel.isSome

/-- Two states of one instance kind that hold the same contents in every register an operation reads (R36, R67). -/
def agreeOnReads (op : Instr) (s t : State) : Prop :=
  s.params = t.params ∧ ∀ x ∈ reads op, readOperand s x = readOperand t x

/-- `A[i]` as a number (R8, R10); 0 past the end of the buffer. -/
def laneValue (a : List Byte) (i : Nat) : Nat := (a.getD i 0#8).toNat

/-- The counter of a counter block: `A[12]*2^24 + A[13]*2^16 + A[14]*2^8 + A[15]` (R140). -/
def counterValue (a : List Byte) : Nat :=
  laneValue a 12 * 2 ^ 24 + laneValue a 13 * 2 ^ 16 + laneValue a 14 * 2 ^ 8 + laneValue a 15

/-- The host's loop of R143 after its first write of A: INCW, then, if it ended OK (R185), A written with the lanes of RESULT, `n`
times. `none` if a command records a fault or does not end OK with lanes. -/
def incrementChain : Nat → State → Option State
  | 0, s => some s
  | n + 1, s =>
    match exec .incw s with
    | .next t =>
      match t.result with
      | .lanes v =>
        if t.faults = s.faults ∧ t.statusCode = codeOk then incrementChain n (writeOperand t (.a v)) else none
      | _ => none
    | _ => none

end Sys2Proof.Machine
end

