-- ==== Sys2Proof/Certificates/Slice0/Obligations.lean ====
section
/-! DEFINITION. The statements for the provers, from the numbered rules of spec/.

Where a statement writes `trace := tr` under an existential it leaves the model's own trace field (log 8) open; the traces have
statements of their own. The OPEN parameters are in `s.params` (log 3): every statement holds for all of them. A model fault is a next
state with one more entry in `faults` (log 6): a statement whose next state is written out says by that whether one is recorded. -/

open Sys2Proof Sys2Proof.Machine

/-! ## Reset and quiescence -/

/-- R37: every register after reset; CMD holds no state, so there is nothing to say of it. -/
def Obligations.ResetLeavesRegistersUnwritten : Prop :=
  (∀ x, readOperand State.reset x = none) ∧ State.reset.statusCode = 0#3 ∧
    statusWord State.reset = 0#32 ∧ State.reset.result = .none

/-- R180: the reset event sets every register to its value of R37 and does nothing else; the faults recorded before it stay. -/
def Obligations.ResetEventRestoresRegisters : Prop :=
  ∀ s rest, s.pending = .reset :: rest → ∃ tr,
    step s = .next { params := s.params, a := none, b := none, tb := none, ts := none, idx := none, sel := none,
                     statusCode := 0#3, result := .none, trace := tr, pending := rest, faults := s.faults,
                     observed := s.observed }

/-- R168, R181 through log 2: with no host action left nothing changes. -/
def Obligations.QuiescentWithoutHostAction : Prop :=
  ∀ s, s.pending = [] → step s = .next s

/-! ## Command words -/

/-- A step on a CMD write of a legal word runs exactly the decoded operation, after the action is taken off the host's script. -/
def Obligations.StepRunsDecodedCommand : Prop :=
  ∀ s w rest i, s.pending = .wrCMD w :: rest → decode w = .operation i →
    step s = exec i { s with pending := rest }

/-- R64: an illegal word (OP 0x0, OP 0xB to 0xF, or RSV not 0) reads no operand register, leaves RESULT and every other register,
and sets STATUS.CODE to 4. -/
def Obligations.IllegalCommandOnlySetsStatus : Prop :=
  ∀ (s : State) (w : CommandWord) rest, s.pending = .wrCMD w :: rest →
    (w.extractLsb' 0 4 = 0#4 ∨ 0xB ≤ (w.extractLsb' 0 4).toNat ∨ w.extractLsb' 4 28 ≠ 0#28) →
    ∃ tr, step s = .next { s with statusCode := 4#3, trace := tr, pending := rest }

/-- R60, R61, R62: a word decodes to an operation exactly when RSV is 0 and OP is that operation's code. -/
def Obligations.DecoderReadsOperationCodes : Prop :=
  ∀ (w : CommandWord) (i : Instr), decode w = .operation i ↔
    (w.extractLsb' 4 28 = 0#28 ∧
      (i, w.extractLsb' 0 4) ∈ [(Instr.b2bits, 0x1#4), (.bits2b, 0x2#4), (.parsebe, 0x3#4), (.parsele, 0x4#4), (.revb, 0x5#4),
        (.sela, 0x6#4), (.sels, 0x7#4), (.xor, 0x8#4), (.mux, 0x9#4), (.incw, 0xA#4)])

/-- The legal command words are exactly 0x00000001 to 0x0000000A. -/
def Obligations.LegalWordsAreOneToTen : Prop :=
  ∀ w : CommandWord, (∃ i, decode w = .operation i) ↔ (1 ≤ w.toNat ∧ w.toNat ≤ 10)

/-- Decoding and encoding agree on all operations and on all words, and the words that decode to none are the ill-formed ones. -/
def Obligations.EncodeDecodeAgree : Prop :=
  (∀ i, wellFormed i = true → decode (encode i) = .operation i) ∧
  (∀ w i, decode w = .operation i → encode i = w) ∧
  ∀ w, decode w = .illegal ↔ wellFormedWord w = false

/-- Words written out from R61 and the vectors D-DEC-1 to D-DEC-5 of 95_test_vectors.md. -/
def Obligations.WrittenOutWordsDecode : Prop :=
  decode 0x00000001#32 = .operation .b2bits ∧ decode 0x00000005#32 = .operation .revb ∧
  decode 0x00000006#32 = .operation .sela ∧ decode 0x00000008#32 = .operation .xor ∧
  decode 0x00000009#32 = .operation .mux ∧ decode 0x0000000A#32 = .operation .incw ∧
  decode 0x00000000#32 = .illegal ∧ decode 0x0000000B#32 = .illegal ∧ decode 0x0000000F#32 = .illegal ∧
  decode 0x00000011#32 = .illegal ∧ decode 0x80000001#32 = .illegal

/-! ## Operand check, commit, dependence -/

/-- R67: the registers each operation reads, in order; a command records a fault exactly when a register of its list is unwritten, so
an unwritten register outside the list causes none. -/
def Obligations.OnlyListedRegistersCauseFaults : Prop :=
  (reads .b2bits = [.A] ∧ reads .bits2b = [.A] ∧ reads .parsebe = [.A] ∧ reads .parsele = [.A] ∧ reads .revb = [.A] ∧
    reads .incw = [.A] ∧ reads .sela = [.TB, .IDX] ∧ reads .sels = [.TS, .IDX] ∧ reads .xor = [.A, .B] ∧
    reads .mux = [.A, .B, .SEL]) ∧
  ∀ i s t, exec i s = .next t → (t.faults ≠ s.faults ↔ ∃ x ∈ reads i, readOperand s x = none)

/-- When a register that an operation reads is unwritten, the fault recorded names the operation and the first such register, and
neither STATUS nor RESULT nor any other register is written (R66, R158). That the command ends there and the machine goes on with the
fault recorded is the model's reading of the spec, log 6. -/
def Obligations.UnwrittenOperandFaults : Prop :=
  ∀ i s x, (reads i).find? (fun y => (readOperand s y).isNone) = some x →
    ∃ tr, exec i s = .next { s with faults := s.faults ++ [.unwrittenOperand i x], trace := tr }

/-- Every operation whose operands are written completes with no fault, with one of the codes OK, LENGTH_ERROR, RANGE_ERROR (R150,
R188). -/
def Obligations.WrittenOperandsComplete : Prop :=
  ∀ i s, (∀ x ∈ reads i, readOperand s x ≠ none) →
    ∃ t, exec i s = .next t ∧ t.faults = s.faults ∧ (t.statusCode = 1#3 ∨ t.statusCode = 2#3 ∨ t.statusCode = 3#3)

/-- R153, for a command of any word that records no fault (UnwrittenOperandFaults says what one that does leaves): a failed command
writes no part of RESULT, a successful one writes it, and no command writes any other register (nor the model's own fields, but
its script, whose command is done, and the trace). -/
def Obligations.FailedCommandKeepsResult : Prop :=
  ∀ s w rest t, s.pending = .wrCMD w :: rest → step s = .next t → t.faults = s.faults →
    t = { s with result := t.result, statusCode := t.statusCode, trace := t.trace, pending := rest } ∧
    (t.statusCode = 1#3 ∨ t.statusCode = 2#3 ∨ t.statusCode = 3#3 ∨ t.statusCode = 4#3) ∧
    (t.statusCode ≠ 1#3 → t.result = s.result) ∧ (t.statusCode = 1#3 → t.result ≠ .none)

/-- R36: the output of a command is a function of the command and of the operand registers it reads: two instances with the
same parameters that agree on those registers both record no fault or both one, and when none is recorded they give the same code
and, on success, the same RESULT, whatever else they hold. -/
def Obligations.OutputDependsOnReadsOnly : Prop :=
  ∀ i s t s' t', agreeOnReads i s t → exec i s = .next s' → exec i t = .next t' →
    (s'.faults = s.faults ↔ t'.faults = t.faults) ∧
    (s'.faults = s.faults → t'.statusCode = s'.statusCode ∧ (s'.statusCode = 1#3 → t'.result = s'.result))

/-- Running a command again with no host write between gives the same STATUS, RESULT and trace again; when it recorded no fault, the
same state (R46, R142). -/
def Obligations.CommandTwiceChangesNothingMore : Prop :=
  ∀ i s t, exec i s = .next t → ∃ u, exec i t = .next u ∧
    u.statusCode = t.statusCode ∧ u.result = t.result ∧ u.trace = t.trace ∧ (t.faults = s.faults → u = t)

/-! ## Access trace -/

/-- R48: two instances of one public shape perform the same lane reads, and record the same fault or none, whatever their lane values,
IDX and SEL hold. -/
def Obligations.AccessTraceIgnoresSecrets : Prop :=
  ∀ i s t s', publicShape s = publicShape t → exec i s = .next s' →
    ∃ t' added, exec i t = .next t' ∧ t'.trace = s'.trace ∧ s'.faults = s.faults ++ added ∧ t'.faults = t.faults ++ added

/-- R47, R49: a command that does not end in LENGTH_ERROR has read its whole canonical trace, one that does, or that faults on an
unwritten operand (log 8), has read no lane. `m` is the common entry length of TB. An illegal command reads no lane. -/
def Obligations.CanonicalTraceIsRead : Prop :=
  (∀ s w rest t, s.pending = .wrCMD w :: rest → decode w = .illegal → step s = .next t → t.trace = []) ∧
  ∀ i s t, exec i s = .next t →
    (t.faults ≠ s.faults → t.trace = []) ∧
    (t.faults = s.faults → t.statusCode = 2#3 → t.trace = []) ∧
    (t.faults = s.faults → t.statusCode ≠ 2#3 →
      match i with
      | .b2bits | .bits2b | .revb => ∃ a, s.a = some a ∧ t.trace = (List.range a.length).map LaneRead.a
      | .parsebe | .parsele => t.trace = (List.range 8).map LaneRead.a
      | .sela => ∃ tb m, s.tb = some tb ∧ (∀ e ∈ tb, e.length = m) ∧
          t.trace = .idx :: (List.range tb.length).flatMap fun i => (List.range m).map (LaneRead.tb i)
      | .sels => ∃ ts, s.ts = some ts ∧ t.trace = .idx :: (List.range ts.length).map LaneRead.ts
      | .xor => t.trace = (List.range 16).map LaneRead.a ++ (List.range 16).map LaneRead.b
      | .mux => t.trace = .sel :: ((List.range 16).map LaneRead.a ++ (List.range 16).map LaneRead.b)
      | .incw => t.trace = (List.range 16).map LaneRead.a)

/-! ## BitByteCodec -/

/-- R80, R81: B2BITS. -/
def Obligations.B2bitsExpandsMsbFirst : Prop :=
  decode 0x00000001#32 = .operation .b2bits ∧
  ∀ (s : State) (a : List Byte), s.a = some a →
    (8 * a.length ≤ s.params.maxLanes → ∃ out tr,
      exec .b2bits s = .next { s with result := .lanes out, statusCode := 1#3, trace := tr } ∧
      out.length = 8 * a.length ∧
      ∀ k m, k < a.length → m < 8 → laneValue out (8 * k + m) = laneValue a k / 2 ^ (7 - m) % 2) ∧
    (s.params.maxLanes < 8 * a.length →
      ∃ tr, exec .b2bits s = .next { s with statusCode := 2#3, trace := tr })

/-- R83, R84: BITS2B. -/
def Obligations.Bits2bPacksMsbFirst : Prop :=
  decode 0x00000002#32 = .operation .bits2b ∧
  ∀ (s : State) (a : List Byte), s.a = some a →
    (a.length % 8 ≠ 0 → ∃ tr, exec .bits2b s = .next { s with statusCode := 2#3, trace := tr }) ∧
    (a.length % 8 = 0 → (∃ b ∈ a, 1 < b.toNat) →
      ∃ tr, exec .bits2b s = .next { s with statusCode := 3#3, trace := tr }) ∧
    (a.length % 8 = 0 → (∀ b ∈ a, b.toNat ≤ 1) → ∃ out tr,
      exec .bits2b s = .next { s with result := .lanes out, statusCode := 1#3, trace := tr } ∧
      out.length = a.length / 8 ∧
      ∀ q, q < a.length / 8 →
        laneValue out q = ((List.range 8).map fun m => laneValue a (8 * q + m) * 2 ^ (7 - m)).sum)

/-- PARSEBE (R86; R151 for the LengthError). R86 marks its LengthError for another width as derived by the spec from the source's contract
and error taxonomy, so this statement's basis is 'derived'. -/
def Obligations.ParsebeReadsBigEndian : Prop :=
  decode 0x00000003#32 = .operation .parsebe ∧
  ∀ (s : State) (a : List Byte), s.a = some a →
    (a.length = 8 → ∃ v tr,
      exec .parsebe s = .next { s with result := .u64 v, statusCode := 1#3, trace := tr } ∧
      v.toNat = ((List.range 8).map fun i => laneValue a i * 2 ^ (8 * (7 - i))).sum) ∧
    (a.length ≠ 8 → ∃ tr, exec .parsebe s = .next { s with statusCode := 2#3, trace := tr })

/-- R88: PARSELE. -/
def Obligations.ParseleReadsLittleEndian : Prop :=
  decode 0x00000004#32 = .operation .parsele ∧
  ∀ (s : State) (a : List Byte), s.a = some a →
    (a.length = 8 → ∃ v tr,
      exec .parsele s = .next { s with result := .u64 v, statusCode := 1#3, trace := tr } ∧
      v.toNat = ((List.range 8).map fun i => laneValue a i * 2 ^ (8 * i)).sum) ∧
    (a.length ≠ 8 → ∃ tr, exec .parsele s = .next { s with statusCode := 2#3, trace := tr })

/-- R90: REVB, of any length. -/
def Obligations.RevbReversesLanes : Prop :=
  decode 0x00000005#32 = .operation .revb ∧
  ∀ (s : State) (a : List Byte), s.a = some a → ∃ out tr,
    exec .revb s = .next { s with result := .lanes out, statusCode := 1#3, trace := tr } ∧
    out.length = a.length ∧ ∀ i, i < a.length → laneValue out i = laneValue a (a.length - 1 - i)

/-- B2BITS then BITS2B on its result gives the bytes back, and BITS2B then B2BITS gives a bit vector back (R85, which the spec derives
from R80 and R83). The second premise of the converse is the capacity that A has (R22). -/
def Obligations.CodecRoundTrip : Prop :=
  (∀ (s : State) (x : List Byte), s.a = some x → 8 * x.length ≤ s.params.maxLanes →
    ∃ t bits u, exec .b2bits s = .next t ∧ t.result = .lanes bits ∧
      exec .bits2b (writeOperand t (.a bits)) = .next u ∧ u.result = .lanes x ∧ u.statusCode = 1#3) ∧
  ∀ (s : State) (y : List Byte), s.a = some y → y.length ≤ s.params.maxLanes → y.length % 8 = 0 →
    (∀ b ∈ y, b.toNat ≤ 1) →
    ∃ t bytes u, exec .bits2b s = .next t ∧ t.result = .lanes bytes ∧
      exec .b2bits (writeOperand t (.a bytes)) = .next u ∧ u.result = .lanes y ∧ u.statusCode = 1#3

/-- PARSEBE of A is PARSELE of A reversed by REVB (R89, which the spec derives from R86, R88 and R90). -/
def Obligations.ParseOrdersAgreeOnReversal : Prop :=
  ∀ (s : State) (a : List Byte), s.a = some a → a.length = 8 →
    ∃ t r u v n, exec .parsebe s = .next t ∧ t.result = .u64 n ∧
      exec .revb s = .next r ∧ (∃ rev, r.result = .lanes rev ∧ v = writeOperand r (.a rev)) ∧
      exec .parsele v = .next u ∧ u.result = .u64 n

/-- REVB on the result of REVB gives A back (R91, which the spec derives from R90). -/
def Obligations.RevbIsInvolution : Prop :=
  ∀ (s : State) (x : List Byte), s.a = some x →
    ∃ t y u, exec .revb s = .next t ∧ t.result = .lanes y ∧
      exec .revb (writeOperand t (.a y)) = .next u ∧ u.result = .lanes x ∧ u.statusCode = 1#3

/-! ## ObliviousSelector -/

/-- R100, R101: SELA. -/
def Obligations.SelaSelectsEntry : Prop :=
  decode 0x00000006#32 = .operation .sela ∧
  ∀ (s : State) (t : List (List Byte)) (k : BitVec 32), s.tb = some t → s.idx = some k →
    ((∃ d ∈ t, ∃ e ∈ t, d.length ≠ e.length) →
      ∃ tr, exec .sela s = .next { s with statusCode := 2#3, trace := tr }) ∧
    ((∀ d ∈ t, ∀ e ∈ t, d.length = e.length) →
      (∀ e, t[k.toNat]? = some e → ∃ tr,
        exec .sela s = .next { s with result := .lanes e, statusCode := 1#3, trace := tr }) ∧
      (t.length ≤ k.toNat → ∃ tr, exec .sela s = .next { s with statusCode := 3#3, trace := tr }))

/-- R105: SELS. The result is the scalar modulo `2^SCALAR_W`; in every state whose scalars are of SCALAR_W bits (R26) that is the scalar
itself. -/
def Obligations.SelsSelectsScalar : Prop :=
  decode 0x00000007#32 = .operation .sels ∧
  ∀ (s : State) (t : List Nat) (k : BitVec 32), s.ts = some t → s.idx = some k →
    (∀ x, t[k.toNat]? = some x → ∃ v tr,
      exec .sels s = .next { s with result := .scalar v, statusCode := 1#3, trace := tr } ∧
      v = x % 2 ^ s.params.scalarW ∧ (x < 2 ^ s.params.scalarW → v = x)) ∧
    (t.length ≤ k.toNat → ∃ tr, exec .sels s = .next { s with statusCode := 3#3, trace := tr })

/-- R103: an index outside the table raises RangeError in SELA (its entries being of one length) and SELS, and leaves RESULT: no wrap
and no clamp. -/
def Obligations.IndexOutsideTableIsRangeError : Prop :=
  (∀ (s : State) (t : List (List Byte)) (k : BitVec 32), s.tb = some t → s.idx = some k →
    (∀ d ∈ t, ∀ e ∈ t, d.length = e.length) →
    ∃ u, exec .sela s = .next u ∧ (u.statusCode = 3#3 ↔ t.length ≤ k.toNat) ∧
      (t.length ≤ k.toNat → u.result = s.result)) ∧
  ∀ (s : State) (t : List Nat) (k : BitVec 32), s.ts = some t → s.idx = some k →
    ∃ u, exec .sels s = .next u ∧ (u.statusCode = 3#3 ↔ t.length ≤ k.toNat) ∧
      (t.length ≤ k.toNat → u.result = s.result)

/-- With SCALAR_W = 8, SELS on scalars and SELA on the same values as one-lane entries give the same value and the same error (R107,
which the spec derives from R100 and R105). -/
def Obligations.SelsMatchesSelaOnOneLaneEntries : Prop :=
  ∀ (s : State) (t : List Byte) (k : BitVec 32), s.params.scalarW = 8 → s.ts = some (t.map BitVec.toNat) →
    s.tb = some (t.map fun x => [x]) → s.idx = some k →
    ∃ u v, exec .sels s = .next u ∧ exec .sela s = .next v ∧ u.statusCode = v.statusCode ∧
      ((∃ x, t[k.toNat]? = some x ∧ u.result = .scalar x.toNat ∧ v.result = .lanes [x] ∧ u.statusCode = 1#3) ∨
        (t.length ≤ k.toNat ∧ u.statusCode = 3#3))

/-! ## BlockXor and ArrayMux -/

/-- R120, R121: XOR. -/
def Obligations.XorCombinesBlocks : Prop :=
  decode 0x00000008#32 = .operation .xor ∧
  ∀ (s : State) (a b : List Byte), s.a = some a → s.b = some b →
    (a.length = 16 → b.length = 16 → ∃ out tr,
      exec .xor s = .next { s with result := .lanes out, statusCode := 1#3, trace := tr } ∧
      out.length = 16 ∧ ∀ j, j < 16 → out.getD j 0#8 = a.getD j 0#8 ^^^ b.getD j 0#8) ∧
    (a.length ≠ 16 ∨ b.length ≠ 16 → ∃ tr, exec .xor s = .next { s with statusCode := 2#3, trace := tr })

/-- XOR is commutative and self-inverse, and of a block with itself the zero block (R122, which the spec derives from R120). -/
def Obligations.XorLaws : Prop :=
  ∀ (s : State) (a b : List Byte), s.a = some a → s.b = some b → a.length = 16 → b.length = 16 →
    ∃ x t u v w, exec .xor s = .next t ∧ t.result = .lanes x ∧
      exec .xor { s with a := some b, b := some a } = .next u ∧ u.result = .lanes x ∧
      exec .xor { s with b := some x } = .next v ∧ v.result = .lanes b ∧
      exec .xor { s with b := some a } = .next w ∧ w.result = .lanes (List.replicate 16 0#8)

/-- R130, R131, R132: MUX, as the value formula of R130. (That its access trace does not depend on SEL is AccessTraceIgnoresSecrets.) -/
def Obligations.MuxCombinesByXorFormula : Prop :=
  decode 0x00000009#32 = .operation .mux ∧
  ∀ (s : State) (a b : List Byte) (sel : BitVec 8), s.a = some a → s.b = some b → s.sel = some sel →
    (a.length ≠ 16 ∨ b.length ≠ 16 → ∃ tr, exec .mux s = .next { s with statusCode := 2#3, trace := tr }) ∧
    (a.length = 16 → b.length = 16 → 1 < sel.toNat →
      ∃ tr, exec .mux s = .next { s with statusCode := 3#3, trace := tr }) ∧
    (a.length = 16 → b.length = 16 → sel.toNat ≤ 1 → ∃ out tr,
      exec .mux s = .next { s with result := .lanes out, statusCode := 1#3, trace := tr } ∧
      out.length = 16 ∧
      ∀ j, j < 16 → laneValue out j =
        (laneValue a j ^^^ (sel.toNat * (laneValue a j ^^^ laneValue b j)) % 2 ^ 8))

/-- MUX gives A for SEL = 0 and B for SEL = 1 (R133, which the spec derives from R130), and with SEL = 1 and A all zero what XOR of the
same A and B gives. -/
def Obligations.MuxChoosesBlock : Prop :=
  (∀ (s : State) (a b : List Byte) (sel : BitVec 8), s.a = some a → s.b = some b → s.sel = some sel →
    a.length = 16 → b.length = 16 → sel.toNat ≤ 1 →
    ∃ t, exec .mux s = .next t ∧ t.statusCode = 1#3 ∧ t.result = .lanes (if sel = 0#8 then a else b)) ∧
  ∀ (s : State) (b : List Byte), s.a = some (List.replicate 16 0#8) → s.b = some b → s.sel = some 1#8 →
    b.length = 16 → ∃ t u, exec .mux s = .next t ∧ exec .xor s = .next u ∧ t.result = u.result

/-! ## CounterIncrementer -/

/-- R140: INCW. -/
def Obligations.IncwIncrementsCounterWord : Prop :=
  decode 0x0000000A#32 = .operation .incw ∧
  ∀ (s : State) (a : List Byte), s.a = some a →
    (a.length = 16 → ∃ out tr,
      exec .incw s = .next { s with result := .lanes out, statusCode := 1#3, trace := tr } ∧
      out.length = 16 ∧ out.take 12 = a.take 12 ∧ counterValue out = (counterValue a + 1) % 2 ^ 32) ∧
    (a.length ≠ 16 → ∃ tr, exec .incw s = .next { s with statusCode := 2#3, trace := tr })

/-- `n` increments in the host's loop add `n` to the counter modulo `2^32` and keep the nonce (R143, which the spec derives from R140 by
induction). -/
def Obligations.RepeatedIncrementAddsCount : Prop :=
  ∀ (n : Nat) (s : State) (a : List Byte), s.a = some a → a.length = 16 →
    ∃ t out, incrementChain n s = some t ∧ t.a = some out ∧ out.length = 16 ∧ out.take 12 = a.take 12 ∧
      counterValue out = (counterValue a + n) % 2 ^ 32

/-! ## Host actions -/

/-- A host write within capacity sets its own register, whole, and nothing else; one beyond it has no move (R34, R46, R170). -/
def Obligations.HostWriteSetsOneRegister : Prop :=
  ∀ s v rest, s.pending = .wr v :: rest →
    (withinCapacity s.params v → ∃ t, step s = .next t ∧ readOperand t (regOf v) = some v ∧
      (∀ x, x ≠ regOf v → readOperand t x = readOperand s x) ∧
      t.params = s.params ∧ t.statusCode = s.statusCode ∧ t.result = s.result ∧ t.trace = s.trace ∧
      t.pending = rest ∧ t.faults = s.faults ∧ t.observed = s.observed) ∧
    (¬ withinCapacity s.params v → step s = .refused (.noMove .beyondCapacity))

/-- R159 (and R46): a host read of an unwritten operand register, or of RESULT while its kind is NONE, records the fault UnwrittenRead and
gives nothing; every other read gives the host the register's contents, and changes no register; reads of RESULT.KIND and
of STATUS are always defined, and record no fault. That the machine goes on with the fault recorded is log 6. -/
def Obligations.UnwrittenReadFaults : Prop :=
  (∀ s x rest, s.pending = .rd x :: rest →
    (readOperand s x = none →
      step s = .next { s with pending := rest, faults := s.faults ++ [.unwrittenRead (.operand x)] }) ∧
    ∀ v, readOperand s x = some v →
      step s = .next { s with pending := rest, observed := s.observed ++ [.operand v] }) ∧
  (∀ s rest, s.pending = .rdRESULT :: rest →
    (s.result = .none →
      step s = .next { s with pending := rest, faults := s.faults ++ [.unwrittenRead .resultPayload] }) ∧
    (s.result ≠ .none → step s = .next { s with pending := rest, observed := s.observed ++ [.result s.result] })) ∧
  (∀ s rest, s.pending = .rdKIND :: rest →
    ∃ k, step s = .next { s with pending := rest, observed := s.observed ++ [.kind k] } ∧
      (k = .NONE ↔ s.result = .none) ∧ (k = .LANES ↔ ∃ v, s.result = .lanes v) ∧
      (k = .U64 ↔ ∃ v, s.result = .u64 v) ∧ (k = .SCALAR ↔ ∃ v, s.result = .scalar v)) ∧
  ∀ s rest, s.pending = .rdSTATUS :: rest →
    ∃ w : BitVec 32, step s = .next { s with pending := rest, observed := s.observed ++ [.status w] } ∧
      w.extractLsb' 0 3 = s.statusCode ∧ w.extractLsb' 3 29 = 0#29

/-- R31: STATUS as the host reads it has CODE in bits 2:0 and 0 in bits 31:3, a host write of it has no move, and every command
that records no fault ends by writing one of the codes 1 to 4 (UnwrittenOperandFaults says that one that records one leaves STATUS). -/
def Obligations.StatusShowsCodeInThreeBits : Prop :=
  (∀ s rest, s.pending = .rdSTATUS :: rest → ∃ w : BitVec 32,
    step s = .next { s with pending := rest, observed := s.observed ++ [.status w] } ∧
    w.extractLsb' 0 3 = s.statusCode ∧ w.extractLsb' 3 29 = 0#29) ∧
  (∀ s v rest, s.pending = .wrSTATUS v :: rest → step s = .refused (.noMove .writeOfSTATUS)) ∧
  ∀ s w rest t, s.pending = .wrCMD w :: rest → step s = .next t →
    t.faults = s.faults → 1 ≤ t.statusCode.toNat ∧ t.statusCode.toNat ≤ 4

/-- Actions outside the host table have no move (R34, R170, K15; log 9). -/
def Obligations.ForbiddenActionsAreRefused : Prop :=
  (∀ s v rest, s.pending = .wrSTATUS v :: rest → step s = .refused (.noMove .writeOfSTATUS)) ∧
  (∀ s v rest, s.pending = .wrRESULT v :: rest → step s = .refused (.noMove .writeOfRESULT)) ∧
  (∀ s rest, s.pending = .rdCMD :: rest → step s = .refused (.noMove .readOfCMD)) ∧
  ∀ s x i v rest, s.pending = .wrLane x i v :: rest → step s = .refused (.noMove .writeOfLane)

/-- `mov A, RESULT` and `mov B, RESULT` (R70; log 11): in two actions the host reads RESULT and writes its lanes; on an unwritten RESULT
a mov faults as a read, with nothing written; on another kind it has no move. -/
def Obligations.MovCopiesResultLanes : Prop :=
  (∀ s rest v, s.pending = .movA :: rest → s.result = .lanes v → v.length ≤ s.params.maxLanes →
    ∃ t, step s = .next t ∧
      step t = .next { s with a := some v, pending := rest, observed := s.observed ++ [.result (.lanes v)] }) ∧
  (∀ s rest v, s.pending = .movB :: rest → s.result = .lanes v → v.length ≤ s.params.maxLanes →
    ∃ t, step s = .next t ∧
      step t = .next { s with b := some v, pending := rest, observed := s.observed ++ [.result (.lanes v)] }) ∧
  ∀ s rest act, (act = .movA ∨ act = .movB) → s.pending = act :: rest →
    (s.result = .none →
      step s = .next { s with pending := rest, faults := s.faults ++ [.unwrittenRead .resultPayload] }) ∧
    ((∃ v, s.result = .u64 v) ∨ (∃ v, s.result = .scalar v) → step s = .refused (.noMove .movOfNonLanes))

/-! ## Whole-machine rules -/

/-- Only a host write of a register or a reset changes an operand register: no command and no read does (R20, R22 to R28, R46). -/
def Obligations.OnlyHostWritesChangeOperands : Prop :=
  ∀ s act rest t x, s.pending = act :: rest → step s = .next t →
    readOperand t x ≠ readOperand s x → act = .reset ∨ ∃ v, act = .wr v ∧ regOf v = x

/-- R35: what is written stays written until a reset; a write and a successful command make it so. -/
def Obligations.WrittenStaysWrittenUntilReset : Prop :=
  (∀ s act rest t, s.pending = act :: rest → act ≠ .reset → step s = .next t →
    (∀ x, readOperand s x ≠ none → readOperand t x ≠ none) ∧ (s.result ≠ .none → t.result ≠ .none)) ∧
  (∀ s v rest t, s.pending = .wr v :: rest → step s = .next t → readOperand t (regOf v) ≠ none) ∧
  (∀ s rest t, s.pending = .reset :: rest → step s = .next t → (∀ x, readOperand t x = none) ∧ t.result = .none)

/-- Whatever the host does, a reset too, every fault recorded before stays recorded, in its place (R172, R180, K19; log 6). -/
def Obligations.RecordedFaultsStay : Prop :=
  ∀ s t, step s = .next t → s.faults <+: t.faults

/-- No command stops the machine, no step ends in a fault outcome, and a step is refused only on one of the host actions that the spec gives
no move, by its name: a host write beyond capacity, a write of STATUS, RESULT or one lane, a read of CMD, a mov of a RESULT
that holds no lanes (R34, R70, R150, R160, R170, R188; log 6, 9, 11). -/
def Obligations.StepsStopOnlyWithoutMove : Prop :=
  (∀ i s, ∃ t, exec i s = .next t) ∧
  ∀ s, (∃ t, step s = .next t) ∨
    ∃ act rest, s.pending = act :: rest ∧
      ((∃ v, act = .wr v ∧ ¬ withinCapacity s.params v ∧ step s = .refused (.noMove .beyondCapacity)) ∨
        (∃ v, act = .wrSTATUS v ∧ step s = .refused (.noMove .writeOfSTATUS)) ∨
        (∃ v, act = .wrRESULT v ∧ step s = .refused (.noMove .writeOfRESULT)) ∨
        (act = .rdCMD ∧ step s = .refused (.noMove .readOfCMD)) ∨
        (∃ x i v, act = .wrLane x i v ∧ step s = .refused (.noMove .writeOfLane)) ∨
        ((act = .movA ∨ act = .movB) ∧ ((∃ v, s.result = .u64 v) ∨ ∃ v, s.result = .scalar v) ∧
          step s = .refused (.noMove .movOfNonLanes)))

/-- The invariant holds right after reset, whatever legal parameters the instance has. -/
def Obligations.InvariantHoldsAtReset : Prop :=
  StateInv State.reset ∧ ∀ p, Config.paramsOk p = true → StateInv (State.resetOf p)

/-- Every step keeps the invariant: capacities, scalar widths, legal status codes, the tie between STATUS.CODE and RESULT.KIND, and that each
recorded UnwrittenOperand names a register its operation reads. -/
def Obligations.StepKeepsStateInvariant : Prop :=
  ∀ s t, StateInv s → step s = .next t → StateInv t

/-- Steps of two instances of a platform leave each other alone: they can be taken in either order (R51, R166). -/
def Obligations.InstancesStepIndependently : Prop :=
  ∀ (p q r : Platform) (j k : Nat), j ≠ k → stepInstance j p = .next q → stepInstance k q = .next r →
    ∃ q', stepInstance k p = .next q' ∧ stepInstance j q' = .next r
end

