-- ==== Sys2Proof/Laws/State.lean ====
section
/-! SUPPORT. The small lemmas of the updates of a state: what each leaves in every field. -/

namespace Sys2Proof.Laws

open Sys2Proof.Machine

/-! The fixed parameters of R7, as numbers. -/

@[simp] theorem blockBytes_eq : Config.blockBytes = 16 := rfl
@[simp] theorem parseBytes_eq : Config.parseBytes = 8 := rfl
@[simp] theorem ctrFirst_eq : Config.ctrFirst = 12 := rfl
@[simp] theorem xorW_eq : Config.xorW = 16 := rfl
@[simp] theorem muxW_eq : Config.muxW = 16 := rfl
@[simp] theorem minMaxLanes_eq : Config.minMaxLanes = 128 := rfl

variable (s : State) (r : OpRun) (o : Observation) (v : OperandValue)

/-! The commit of a command writes RESULT, STATUS.CODE and the trace only (R66, R153). -/

@[simp] theorem commit_params : (commit s r).params = s.params := by cases r <;> rfl
@[simp] theorem commit_a : (commit s r).a = s.a := by cases r <;> rfl
@[simp] theorem commit_b : (commit s r).b = s.b := by cases r <;> rfl
@[simp] theorem commit_tb : (commit s r).tb = s.tb := by cases r <;> rfl
@[simp] theorem commit_ts : (commit s r).ts = s.ts := by cases r <;> rfl
@[simp] theorem commit_idx : (commit s r).idx = s.idx := by cases r <;> rfl
@[simp] theorem commit_sel : (commit s r).sel = s.sel := by cases r <;> rfl
@[simp] theorem commit_pending : (commit s r).pending = s.pending := by cases r <;> rfl
@[simp] theorem commit_faults : (commit s r).faults = s.faults := by cases r <;> rfl
@[simp] theorem commit_observed : (commit s r).observed = s.observed := by cases r <;> rfl

@[simp] theorem commit_ok_result (x : Result) (tr : List LaneRead) : (commit s (.ok x tr)).result = x := rfl
@[simp] theorem commit_ok_code (x : Result) (tr : List LaneRead) : (commit s (.ok x tr)).statusCode = codeOk := rfl
@[simp] theorem commit_ok_trace (x : Result) (tr : List LaneRead) : (commit s (.ok x tr)).trace = tr := rfl
@[simp] theorem commit_length_result : (commit s .lengthError).result = s.result := rfl
@[simp] theorem commit_length_code : (commit s .lengthError).statusCode = codeLengthError := rfl
@[simp] theorem commit_length_trace : (commit s .lengthError).trace = [] := rfl
@[simp] theorem commit_range_result (tr : List LaneRead) : (commit s (.rangeError tr)).result = s.result := rfl
@[simp] theorem commit_range_code (tr : List LaneRead) : (commit s (.rangeError tr)).statusCode = codeRangeError := rfl
@[simp] theorem commit_range_trace (tr : List LaneRead) : (commit s (.rangeError tr)).trace = tr := rfl

/-! A host read changes the host's record only (R46). -/

@[simp] theorem observe_params : (observe o s).params = s.params := rfl
@[simp] theorem observe_a : (observe o s).a = s.a := rfl
@[simp] theorem observe_b : (observe o s).b = s.b := rfl
@[simp] theorem observe_tb : (observe o s).tb = s.tb := rfl
@[simp] theorem observe_ts : (observe o s).ts = s.ts := rfl
@[simp] theorem observe_idx : (observe o s).idx = s.idx := rfl
@[simp] theorem observe_sel : (observe o s).sel = s.sel := rfl
@[simp] theorem observe_statusCode : (observe o s).statusCode = s.statusCode := rfl
@[simp] theorem observe_result : (observe o s).result = s.result := rfl
@[simp] theorem observe_trace : (observe o s).trace = s.trace := rfl
@[simp] theorem observe_pending : (observe o s).pending = s.pending := rfl
@[simp] theorem observe_faults : (observe o s).faults = s.faults := rfl
@[simp] theorem observe_observed : (observe o s).observed = s.observed ++ [o] := rfl

/-! A host write changes its own register only (R34, R46). -/

@[simp] theorem writeOperand_params : (writeOperand s v).params = s.params := by cases v <;> rfl
@[simp] theorem writeOperand_statusCode : (writeOperand s v).statusCode = s.statusCode := by cases v <;> rfl
@[simp] theorem writeOperand_result : (writeOperand s v).result = s.result := by cases v <;> rfl
@[simp] theorem writeOperand_trace : (writeOperand s v).trace = s.trace := by cases v <;> rfl
@[simp] theorem writeOperand_pending : (writeOperand s v).pending = s.pending := by cases v <;> rfl
@[simp] theorem writeOperand_faults : (writeOperand s v).faults = s.faults := by cases v <;> rfl
@[simp] theorem writeOperand_observed : (writeOperand s v).observed = s.observed := by cases v <;> rfl

/-- A register reads as what was written to it. -/
theorem readOperand_writeOperand_same : readOperand (writeOperand s v) (regOf v) = some v := by
  cases v <;> rfl

/-- A register reads as before a write of another. -/
theorem readOperand_writeOperand_other (x : OperandReg) (h : x ≠ regOf v) :
    readOperand (writeOperand s v) x = readOperand s x := by
  cases v <;> cases x <;> first | rfl | exact absurd rfl h

/-! The illegal command and the reset event. -/

@[simp] theorem illegalCommand_statusCode : (illegalCommand s).statusCode = codeIllegal := rfl
@[simp] theorem illegalCommand_result : (illegalCommand s).result = s.result := rfl
@[simp] theorem illegalCommand_params : (illegalCommand s).params = s.params := rfl
@[simp] theorem illegalCommand_trace : (illegalCommand s).trace = [] := rfl
@[simp] theorem illegalCommand_pending : (illegalCommand s).pending = s.pending := rfl
@[simp] theorem illegalCommand_faults : (illegalCommand s).faults = s.faults := rfl
@[simp] theorem illegalCommand_observed : (illegalCommand s).observed = s.observed := rfl
@[simp] theorem resetEvent_params : (resetEvent s).params = s.params := rfl
@[simp] theorem resetEvent_statusCode : (resetEvent s).statusCode = codeIdle := rfl
@[simp] theorem resetEvent_result : (resetEvent s).result = .none := rfl
@[simp] theorem resetEvent_trace : (resetEvent s).trace = [] := rfl
@[simp] theorem resetEvent_pending : (resetEvent s).pending = s.pending := rfl
@[simp] theorem resetEvent_faults : (resetEvent s).faults = s.faults := rfl
@[simp] theorem resetEvent_observed : (resetEvent s).observed = s.observed := rfl

/-! Recording a model fault writes the fault record, and for a command the trace, only (R158, R159). -/

variable (f : ModelFault) (op : Instr) (y : OperandReg)

@[simp] theorem recordFault_params : (recordFault f s).params = s.params := rfl
@[simp] theorem recordFault_statusCode : (recordFault f s).statusCode = s.statusCode := rfl
@[simp] theorem recordFault_result : (recordFault f s).result = s.result := rfl
@[simp] theorem recordFault_trace : (recordFault f s).trace = s.trace := rfl
@[simp] theorem recordFault_pending : (recordFault f s).pending = s.pending := rfl
@[simp] theorem recordFault_faults : (recordFault f s).faults = s.faults ++ [f] := rfl
@[simp] theorem recordFault_observed : (recordFault f s).observed = s.observed := rfl
@[simp] theorem operandFault_params : (operandFault op y s).params = s.params := rfl
@[simp] theorem operandFault_statusCode : (operandFault op y s).statusCode = s.statusCode := rfl
@[simp] theorem operandFault_result : (operandFault op y s).result = s.result := rfl
@[simp] theorem operandFault_trace : (operandFault op y s).trace = [] := rfl
@[simp] theorem operandFault_pending : (operandFault op y s).pending = s.pending := rfl
@[simp] theorem operandFault_faults : (operandFault op y s).faults = s.faults ++ [.unwrittenOperand op y] := rfl
@[simp] theorem operandFault_observed : (operandFault op y s).observed = s.observed := rfl

/-- Recording a fault leaves every operand register (R158, R159). -/
@[simp] theorem readOperand_recordFault (x : OperandReg) : readOperand (recordFault f s) x = readOperand s x := by
  cases x <;> rfl

/-- A faulting command leaves every operand register (R158). -/
@[simp] theorem readOperand_operandFault (x : OperandReg) :
    readOperand (operandFault op y s) x = readOperand s x := by cases x <;> rfl

/-- An illegal command leaves every operand register (R64). -/
@[simp] theorem readOperand_illegalCommand (x : OperandReg) :
    readOperand (illegalCommand s) x = readOperand s x := by cases x <;> rfl

/-- A commit leaves every operand register (R22 to R28). -/
@[simp] theorem readOperand_commit (x : OperandReg) : readOperand (commit s r) x = readOperand s x := by
  cases x <;> simp [readOperand]

/-- A host read leaves every operand register (R46). -/
@[simp] theorem readOperand_observe (x : OperandReg) : readOperand (observe o s) x = readOperand s x := by
  cases x <;> rfl

/-- Reset makes every operand register unwritten (R37). -/
@[simp] theorem readOperand_resetEvent (x : OperandReg) : readOperand (resetEvent s) x = none := by
  cases x <;> rfl

end Sys2Proof.Laws
end

