-- ==== Sys2Proof/Laws/Ops.lean ====
section
/-! SUPPORT. One lemma per shared operation: what a sweep reads, what the operand check answers, what a command can do, and
what the two byte orders compute. -/

namespace Sys2Proof.Laws

open Sys2Proof.Machine

/-! ## Sweeps -/

/-- A sweep answers the lanes it read. -/
@[simp] theorem sweepLanes_value {α : Type} (mk : Nat → LaneRead) (xs : List α) (i : Nat) :
    (sweepLanes mk i xs).value = xs := by
  induction xs generalizing i with
  | nil => rfl
  | cons x xs ih => simp [sweepLanes, ih]

/-- The trace of a sweep depends on the length alone: lanes `i`, `i + 1`, … in ascending order. -/
theorem sweepLanes_trace {α : Type} (mk : Nat → LaneRead) (xs : List α) (i : Nat) :
    (sweepLanes mk i xs).trace = (List.range' i xs.length).map mk := by
  induction xs generalizing i with
  | nil => rfl
  | cons x xs ih => simp [sweepLanes, ih, List.range'_succ]

/-- A sweep of the table answers its entries. -/
@[simp] theorem sweepTable_value (t : List (List Byte)) (i : Nat) : (sweepTable i t).value = t := by
  induction t generalizing i with
  | nil => rfl
  | cons e es ih => simp [sweepTable, ih]

/-- The trace of a sweep of the table depends on the entry lengths alone. -/
theorem sweepTable_trace_lengths (t u : List (List Byte)) (i : Nat)
    (h : t.map List.length = u.map List.length) : (sweepTable i t).trace = (sweepTable i u).trace := by
  induction t generalizing i u with
  | nil => cases u with
    | nil => rfl
    | cons f fs => simp at h
  | cons e es ih => cases u with
    | nil => simp at h
    | cons f fs =>
      simp only [List.map_cons, List.cons.injEq] at h
      simp only [sweepTable, sweepLanes_trace, h.1, ih fs (i + 1) h.2]

/-- The canonical trace of a table whose entries all have length `m` (R47). -/
theorem sweepTable_trace (t : List (List Byte)) (m i : Nat) (h : ∀ e ∈ t, e.length = m) :
    (sweepTable i t).trace
      = (List.range' i t.length).flatMap fun i => (List.range m).map (LaneRead.tb i) := by
  induction t generalizing i with
  | nil => rfl
  | cons e es ih =>
    simp [sweepTable, sweepLanes_trace, List.range'_succ, List.range_eq_range', h e (by simp),
      ih (i + 1) fun x hx => h x (by simp [hx])]

/-! ## The operand check -/

@[simp] theorem fetch_some {α : Type} (op : Instr) (x : OperandReg) (s : State) (v : α)
    (k : α → Host.Outcome State Fault Refusal) : fetch op x s (some v) k = k v := rfl

@[simp] theorem fetch_none {α : Type} (op : Instr) (x : OperandReg) (s : State)
    (k : α → Host.Outcome State Fault Refusal) : fetch op x s none k = .next (operandFault op x s) := rfl

/-- The operand check goes on from a written register, and records its fault at an unwritten one. -/
theorem fetch_cases {α : Type} (op : Instr) (x : OperandReg) (s : State) (r : Option α)
    (k : α → Host.Outcome State Fault Refusal) :
    (∃ v, r = some v ∧ fetch op x s r k = k v) ∨ (r = none ∧ fetch op x s r k = .next (operandFault op x s)) := by
  cases r with
  | none => exact .inr ⟨rfl, rfl⟩
  | some v => exact .inl ⟨v, rfl, rfl⟩

/-! ## What a command can do -/

/-- What an operation that ends OK returns is never of kind NONE. -/
theorem op_ok_ne_none (r : OpRun) (tr : List LaneRead) (h : r = .ok .none tr) (p : Config.Params)
    (a b : List Byte) (tb : List (List Byte)) (ts : List Nat) (k : BitVec 32) (sel : BitVec 8) :
    r ≠ opB2bits p.maxLanes a ∧ r ≠ opBits2b a ∧ r ≠ opParsebe a ∧ r ≠ opParsele a ∧ r ≠ opRevb a ∧
      r ≠ opSela tb k ∧ r ≠ opSels p.scalarW ts k ∧ r ≠ opXor a b ∧ r ≠ opMux a b sel ∧ r ≠ opIncw a := by
  subst h
  simp only [opB2bits, opBits2b, opParsebe, opParsele, opRevb, opSela, opSels, opXor, opMux, opIncw]
  refine ⟨?_, ?_, ?_, ?_, ?_, ?_, ?_, ?_, ?_, ?_⟩ <;> (repeat' split) <;> simp

/-- A command always answers a next state: it commits one outcome of its operation, or records the fault of the first register of
`Reads(op)` that is unwritten (R66, R158, R188). -/
theorem exec_cases (i : Instr) (s : State) :
    (firstUnwritten s i = none ∧ ∃ r, exec i s = .next (commit s r) ∧ ∀ tr, r ≠ .ok .none tr) ∨
    ∃ x, firstUnwritten s i = some x ∧ exec i s = .next (operandFault i x s) := by
  have ne := fun r tr h => op_ok_ne_none r tr h s.params
  cases i <;>
    simp only [exec, execB2bits, execBits2b, execParsebe, execParsele, execRevb, execIncw, execSela, execSels,
      execXor, execMux, firstUnwritten, reads, List.find?, isWritten, readOperand]
  case b2bits | bits2b | parsebe | parsele | revb | incw =>
    cases ha : s.a with
    | none => exact .inr ⟨_, rfl, rfl⟩
    | some a =>
      refine .inl ⟨rfl, _, rfl, fun tr h => ?_⟩
      have := ne _ tr h a [] [] [] 0 0
      simp at this
  case sela =>
    cases ha : s.tb with
    | none => exact .inr ⟨_, rfl, rfl⟩
    | some t =>
      cases hk : s.idx with
      | none => exact .inr ⟨_, rfl, rfl⟩
      | some k =>
        refine .inl ⟨rfl, _, rfl, fun tr h => ?_⟩
        have := ne _ tr h [] [] t [] k 0
        simp at this
  case sels =>
    cases ha : s.ts with
    | none => exact .inr ⟨_, rfl, rfl⟩
    | some t =>
      cases hk : s.idx with
      | none => exact .inr ⟨_, rfl, rfl⟩
      | some k =>
        refine .inl ⟨rfl, _, rfl, fun tr h => ?_⟩
        have := ne _ tr h [] [] [] t k 0
        simp at this
  case xor =>
    cases ha : s.a with
    | none => exact .inr ⟨_, rfl, rfl⟩
    | some a =>
      cases hb : s.b with
      | none => exact .inr ⟨_, rfl, rfl⟩
      | some b =>
        refine .inl ⟨rfl, _, rfl, fun tr h => ?_⟩
        have := ne _ tr h a b [] [] 0 0
        simp at this
  case mux =>
    cases ha : s.a with
    | none => exact .inr ⟨_, rfl, rfl⟩
    | some a =>
      cases hb : s.b with
      | none => exact .inr ⟨_, rfl, rfl⟩
      | some b =>
        cases hs : s.sel with
        | none => exact .inr ⟨_, rfl, rfl⟩
        | some sel =>
          refine .inl ⟨rfl, _, rfl, fun tr h => ?_⟩
          have := ne _ tr h a b [] [] 0 sel
          simp at this

/-- The same, from the next state. -/
theorem exec_next {i : Instr} {s t : State} (h : exec i s = .next t) :
    (firstUnwritten s i = none ∧ ∃ r, t = commit s r ∧ ∀ tr, r ≠ .ok .none tr) ∨
    ∃ x, firstUnwritten s i = some x ∧ t = operandFault i x s := by
  rcases exec_cases i s with ⟨hn, r, he, hr⟩ | ⟨x, hx, he⟩ <;> rw [he] at h <;> cases h
  · exact .inl ⟨hn, r, rfl, hr⟩
  · exact .inr ⟨x, hx, rfl⟩

/-- One host action that answers a next state does one of these things. -/
theorem perform_next {act : HostAction} {s t : State} (h : perform act s = .next t) :
    (∃ v, act = .wr v ∧ fits s.params v = true ∧ t = writeOperand s v) ∨
    (∃ w i, act = .wrCMD w ∧ decode w = .operation i ∧ exec i s = .next t) ∨
    (∃ w, act = .wrCMD w ∧ decode w = .illegal ∧ t = illegalCommand s) ∨
    (∃ o, t = observe o s) ∨
    (∃ o v, t = { observe o s with pending := .wr v :: s.pending }) ∨
    (∃ x, t = recordFault (.unwrittenRead x) s) ∨
    (act = .reset ∧ t = resetEvent s) := by
  have done : ∀ o, Host.Outcome.next (φ := Fault) (ρ := Refusal) (observe o s) = .next t → ∃ o, t = observe o s :=
    fun o h => ⟨o, by cases h; rfl⟩
  have mov : ∀ mk, hostMov mk s = .next t →
      (∃ o v, t = { observe o s with pending := .wr v :: s.pending }) ∨ ∃ x, t = recordFault (.unwrittenRead x) s := by
    intro mk h
    unfold hostMov at h
    split at h <;> cases h
    · exact .inr ⟨_, rfl⟩
    · exact .inl ⟨_, _, rfl⟩
  cases act <;> simp only [perform] at h
  case wr v =>
    unfold hostWrite at h
    split at h <;> cases h
    exact .inl ⟨v, rfl, ‹_›, rfl⟩
  case wrCMD w =>
    unfold execute at h
    split at h
    · exact .inr (.inl ⟨w, _, rfl, ‹_›, h⟩)
    · cases h
      exact .inr (.inr (.inl ⟨w, rfl, ‹_›, rfl⟩))
  case rdRESULT =>
    unfold hostReadResult at h
    split at h
    · cases h
      exact .inr (.inr (.inr (.inr (.inr (.inl ⟨_, rfl⟩)))))
    · exact .inr (.inr (.inr (.inl (done _ h))))
  case rd x =>
    unfold hostRead at h
    split at h
    · exact .inr (.inr (.inr (.inl (done _ h))))
    · cases h
      exact .inr (.inr (.inr (.inr (.inr (.inl ⟨_, rfl⟩)))))
  case movA | movB =>
    rcases mov _ h with h | h
    · exact .inr (.inr (.inr (.inr (.inl h))))
    · exact .inr (.inr (.inr (.inr (.inr (.inl h)))))
  case reset =>
    cases h
    exact .inr (.inr (.inr (.inr (.inr (.inr ⟨rfl, rfl⟩)))))
  all_goals first | exact .inr (.inr (.inr (.inl (done _ h)))) | cases h

/-- The capacity check of a host write is the capacity of R34. -/
theorem fits_iff_withinCapacity (p : Config.Params) (v : OperandValue) : fits p v = true ↔ withinCapacity p v := by
  cases v <;> simp [fits, withinCapacity]

/-! ## Byte orders -/

/-- Big-endian reading of a buffer split in two (R12). -/
theorem bigEndian_append (x y : List Byte) :
    bigEndian (x ++ y) = bigEndian x * 2 ^ (8 * y.length) + bigEndian y := by
  induction x with
  | nil => simp [bigEndian]
  | cons b bs ih =>
    simp only [List.cons_append, bigEndian, ih, List.length_append, Nat.mul_add, Nat.pow_add]
    ring

/-- Little-endian reading of a buffer split in two (R12). -/
theorem littleEndian_append (x y : List Byte) :
    littleEndian (x ++ y) = littleEndian x + 2 ^ (8 * x.length) * littleEndian y := by
  induction x with
  | nil => simp [littleEndian]
  | cons b bs ih =>
    simp only [List.cons_append, littleEndian, ih, List.length_cons, Nat.mul_add, Nat.pow_add]
    ring

/-- A big-endian number of `n` bytes is below `2^(8n)` (R86: no overflow is possible). -/
theorem bigEndian_lt (x : List Byte) : bigEndian x < 2 ^ (8 * x.length) := by
  induction x with
  | nil => simp [bigEndian]
  | cons b bs ih =>
    have hb := b.isLt
    have h : (b.toNat + 1) * 2 ^ (8 * bs.length) ≤ 2 ^ 8 * 2 ^ (8 * bs.length) := Nat.mul_le_mul_right _ hb
    have e : (2 : Nat) ^ (8 * (bs.length + 1)) = 2 ^ 8 * 2 ^ (8 * bs.length) := by rw [Nat.mul_add, Nat.pow_add, Nat.mul_comm]
    simp only [bigEndian, List.length_cons, e]
    rw [Nat.add_mul] at h
    omega

/-- A little-endian number of `n` bytes is below `2^(8n)` (R88). -/
theorem littleEndian_lt (x : List Byte) : littleEndian x < 2 ^ (8 * x.length) := by
  induction x with
  | nil => simp [littleEndian]
  | cons b bs ih =>
    have hb := b.isLt
    have e : (2 : Nat) ^ (8 * (bs.length + 1)) = 2 ^ 8 * 2 ^ (8 * bs.length) := by rw [Nat.mul_add, Nat.pow_add, Nat.mul_comm]
    simp only [littleEndian, List.length_cons, e]
    omega

/-- `LE` as the sum of R12. -/
theorem littleEndian_eq_sum (x : List Byte) :
    littleEndian x = ((List.range x.length).map fun i => laneValue x i * 2 ^ (8 * i)).sum := by
  induction x with
  | nil => rfl
  | cons b bs ih =>
    have e : ∀ i, laneValue (b :: bs) (i + 1) * 2 ^ (8 * (i + 1)) = 2 ^ 8 * (laneValue bs i * 2 ^ (8 * i)) := by
      intro i
      rw [Nat.mul_add, Nat.pow_add]
      simp only [laneValue, List.getD_cons_succ]
      ring
    rw [littleEndian, ih, List.length_cons, List.range_succ_eq_map, List.map_cons, List.sum_cons, List.map_map]
    simp only [Function.comp_def, Nat.succ_eq_add_one, e, List.sum_map_mul_left]
    simp [laneValue]

/-- `BE` as the sum of R12. -/
theorem bigEndian_eq_sum (x : List Byte) :
    bigEndian x = ((List.range x.length).map fun i => laneValue x i * 2 ^ (8 * (x.length - 1 - i))).sum := by
  induction x with
  | nil => rfl
  | cons b bs ih =>
    have e : ∀ i, laneValue (b :: bs) (i + 1) * 2 ^ (8 * (bs.length + 1 - 1 - (i + 1)))
        = laneValue bs i * 2 ^ (8 * (bs.length - 1 - i)) := by
      intro i
      rw [show bs.length + 1 - 1 - (i + 1) = bs.length - 1 - i by omega]
      rfl
    rw [bigEndian, ih, List.length_cons, List.range_succ_eq_map, List.map_cons, List.sum_cons, List.map_map]
    simp only [Function.comp_def, Nat.succ_eq_add_one, e]
    rfl

/-- The four bytes of a word read back as the word (R140). -/
theorem bigEndian_wordBytes (c : BitVec 32) : bigEndian (wordBytes c) = c.toNat := by
  have h := c.isLt
  simp only [wordBytes, bigEndian, BitVec.extractLsb'_toNat, Nat.shiftRight_eq_div_pow, List.length_cons,
    List.length_nil]
  omega

/-- The counter of a block is the big-endian reading of its last four bytes (R140). -/
theorem counterValue_eq_bigEndian (a : List Byte) (h : a.length = 16) :
    counterValue a = bigEndian (a.drop 12) := by
  have hd : (a.drop 12).length = 4 := by simp [h]
  have hi : ∀ i, laneValue (a.drop 12) i = laneValue a (12 + i) := fun i => by
    simp [laneValue, List.getD_eq_getElem?_getD]
  rw [bigEndian_eq_sum, hd]
  simp only [hi, List.range_succ, List.range_zero, List.map_append, List.map_nil, List.map_cons, List.sum_append,
    List.sum_cons, List.sum_nil, counterValue, Nat.reduceAdd, Nat.add_zero, Nat.zero_add]
  omega

/-- A counter is a 32-bit number (R140). -/
theorem counterValue_lt (a : List Byte) : counterValue a < 2 ^ 32 := by
  have h12 := (a.getD 12 0#8).isLt
  have h13 := (a.getD 13 0#8).isLt
  have h14 := (a.getD 14 0#8).isLt
  have h15 := (a.getD 15 0#8).isLt
  unfold counterValue laneValue
  omega

/-! ## The operations' own loops -/

/-- A byte expands to eight lanes (R80). -/
@[simp] theorem byteToBits_length (v : Byte) : (byteToBits v).length = 8 := by simp [byteToBits]

/-- Expansion gives eight lanes per byte (R80). -/
theorem flatMap_byteToBits_length (a : List Byte) : (a.flatMap byteToBits).length = 8 * a.length := by
  induction a with
  | nil => rfl
  | cons x xs ih => simp [ih]; omega

/-- Eight lanes pack into one byte, and the rest packs on its own (R83). -/
theorem packBits_cons (b0 b1 b2 b3 b4 b5 b6 b7 : Byte) (rest : List Byte) :
    packBits (b0 :: b1 :: b2 :: b3 :: b4 :: b5 :: b6 :: b7 :: rest)
      = bitsToByte b0 b1 b2 b3 b4 b5 b6 b7 :: packBits rest := rfl

/-- The hits of SELA's loop: one when the index is among the entries visited, none otherwise (R100). -/
theorem selectEntries_hits (k i : Nat) (t : List (List Byte)) (acc : List Byte) (hit : Nat) :
    (selectEntries k i t acc hit).2 = hit + if i ≤ k ∧ k < i + t.length then 1 else 0 := by
  induction t generalizing i acc hit with
  | nil => simp [selectEntries]
  | cons e es ih =>
    simp only [selectEntries, ih, eqIndicator, List.length_cons]
    split_ifs <;> omega

/-- The hits of SELS's loop (R105). -/
theorem selectScalars_hits (w k i : Nat) (t : List Nat) (acc hit : Nat) :
    (selectScalars w k i t acc hit).2 = hit + if i ≤ k ∧ k < i + t.length then 1 else 0 := by
  induction t generalizing i acc hit with
  | nil => simp [selectScalars]
  | cons e es ih =>
    simp only [selectScalars, ih, eqIndicator, List.length_cons]
    split_ifs <;> omega

/-- A table is not ragged exactly when its entries all have one length (R101). -/
theorem isRagged_eq_false_iff (t : List (List Byte)) :
    isRagged t = false ↔ ∀ d ∈ t, ∀ e ∈ t, d.length = e.length := by
  have key : isRagged t = false ↔ ∀ e ∈ t, e.length = entryLength t := by simp [isRagged]
  rw [key]
  cases t with
  | nil => simp
  | cons a as => exact ⟨fun h d hd e he => (h d hd).trans (h e he).symm, fun h e he => h e he a (by simp)⟩

/-- A weight of 0 adds nothing (R100). -/
theorem addWeighted_zero (acc e : List Byte) (h : acc.length = e.length) : addWeighted 0 acc e = acc := by
  unfold addWeighted
  induction acc generalizing e with
  | nil => simp
  | cons x xs ih =>
    cases e with
    | nil => simp at h
    | cons y ys =>
      simp only [List.length_cons, Nat.add_right_cancel_iff] at h
      simpa using ih ys h

/-- A weight of 1 adds the entry to a zero accumulator (R100). -/
theorem addWeighted_one (n : Nat) (e : List Byte) (h : e.length = n) :
    addWeighted 1 (List.replicate n 0#8) e = e := by
  unfold addWeighted
  induction e generalizing n with
  | nil => simp
  | cons x xs ih =>
    subst h
    simpa [List.replicate_succ] using ih xs.length rfl

/-- SELA's loop leaves the accumulator when the index is not among the entries still to visit. -/
theorem selectEntries_skip (k i : Nat) (t : List (List Byte)) (acc : List Byte) (hit : Nat)
    (h : ∀ e ∈ t, e.length = acc.length) (hk : k < i ∨ i + t.length ≤ k) :
    (selectEntries k i t acc hit).1 = acc := by
  induction t generalizing i hit with
  | nil => rfl
  | cons e es ih =>
    have w : eqIndicator i k = 0 := by
      unfold eqIndicator
      rw [if_neg]
      rintro rfl
      simp at hk
    simp only [selectEntries, w, addWeighted_zero acc e (h e (by simp)).symm]
    exact ih (i + 1) _ (fun x hx => h x (by simp [hx])) (by simp at hk; omega)

/-- SELA's loop over a zero accumulator ends with the entry at the index (R100, R102). -/
theorem selectEntries_hit (k i m : Nat) (t : List (List Byte)) (hit : Nat) (h : ∀ e ∈ t, e.length = m)
    (e : List Byte) (hk : t[k]? = some e) :
    (selectEntries (i + k) i t (List.replicate m 0#8) hit).1 = e := by
  induction t generalizing i k hit with
  | nil => simp at hk
  | cons x xs ih =>
    cases k with
    | zero =>
      simp only [List.getElem?_cons_zero, Option.some.injEq] at hk
      subst hk
      simp only [selectEntries, Nat.add_zero, eqIndicator, if_true, addWeighted_one m x (h x (by simp))]
      exact selectEntries_skip _ _ _ _ _ (fun e he => by rw [h e (by simp [he]), h x (by simp)]) (by omega)
    | succ k =>
      have w : eqIndicator i (i + (k + 1)) = 0 := by
        unfold eqIndicator
        rw [if_neg]
        omega
      simp only [selectEntries, w, addWeighted_zero (List.replicate m 0#8) x (by simp [h x])]
      have := ih k (i + 1) (hit + 0) (fun x hx => h x (by simp [hx])) (by simpa using hk)
      rwa [show i + 1 + k = i + (k + 1) by omega] at this

/-- SELS's loop leaves the accumulator when the index is not among the scalars still to visit. -/
theorem selectScalars_skip (w k i : Nat) (t : List Nat) (acc hit : Nat) (ha : acc < 2 ^ w)
    (hk : k < i ∨ i + t.length ≤ k) : (selectScalars w k i t acc hit).1 = acc := by
  induction t generalizing i hit with
  | nil => rfl
  | cons e es ih =>
    have z : eqIndicator i k = 0 := by
      unfold eqIndicator
      rw [if_neg]
      rintro rfl
      simp at hk
    simp only [selectScalars, z, Nat.zero_mul, Nat.add_zero, Nat.mod_eq_of_lt ha]
    exact ih (i + 1) _ (by simp at hk; omega)

/-- SELS's loop over a zero accumulator ends with the scalar at the index, modulo `2^w` (R105). -/
theorem selectScalars_hit (w k i : Nat) (t : List Nat) (hit x : Nat) (hk : t[k]? = some x) :
    (selectScalars w (i + k) i t 0 hit).1 = x % 2 ^ w := by
  induction t generalizing i k hit with
  | nil => simp at hk
  | cons y ys ih =>
    cases k with
    | zero =>
      simp only [List.getElem?_cons_zero, Option.some.injEq] at hk
      subst hk
      simp only [selectScalars, Nat.add_zero, eqIndicator, if_true, Nat.one_mul, Nat.zero_add]
      exact selectScalars_skip _ _ _ _ _ _ (Nat.mod_lt _ (by positivity)) (by omega)
    | succ k =>
      have z : eqIndicator i (i + (k + 1)) = 0 := by
        unfold eqIndicator
        rw [if_neg]
        omega
      simp only [selectScalars, z, Nat.zero_mul, Nat.add_zero, Nat.zero_mod]
      have := ih k (i + 1) hit (by simpa using hk)
      rwa [show i + 1 + k = i + (k + 1) by omega] at this

end Sys2Proof.Laws
end

