-- ==== Sys2Proof/Laws/PerInstr.lean ====
section
/-! SUPPORT. The family EncodedWord, one lemma per operation (R60 to R63). -/

namespace Sys2Proof.Laws.EncodedWord

/-- The word of an operation is legal and carries its code in OP and 0 in RSV. -/
def Statement (i : Instr) : Prop :=
  wellFormedWord (encode i) = true ∧ opField (encode i) = codeOf i ∧ rsvField (encode i) = 0#28

theorem b2bits : Statement .b2bits := by unfold Statement; decide
theorem bits2b : Statement .bits2b := by unfold Statement; decide
theorem parsebe : Statement .parsebe := by unfold Statement; decide
theorem parsele : Statement .parsele := by unfold Statement; decide
theorem revb : Statement .revb := by unfold Statement; decide
theorem sela : Statement .sela := by unfold Statement; decide
theorem sels : Statement .sels := by unfold Statement; decide
theorem xor : Statement .xor := by unfold Statement; decide
theorem mux : Statement .mux := by unfold Statement; decide
theorem incw : Statement .incw := by unfold Statement; decide

end Sys2Proof.Laws.EncodedWord
end

