-- ==== Sys2Proof/Tests/Slice0.lean ====
section
/-! SUPPORT. Tests: expected values from 95_test_vectors.md (named in each comment) and the examples of the rules, and a witness for the
premises of each statement. -/

namespace Sys2Proof.Tests

open Sys2Proof Sys2Proof.Machine

/-! ## Builders and readers -/

/-- A state with A alone written. -/
def withA (a : List Byte) : State := { State.reset with a := some a }
/-- A state with A and B written. -/
def withAB (a b : List Byte) : State := { State.reset with a := some a, b := some b }
/-- A state with A, B and SEL written. -/
def withABS (a b : List Byte) (sel : Byte) : State := { State.reset with a := some a, b := some b, sel := some sel }
/-- A state with TB and IDX written. -/
def withTB (t : List (List Byte)) (k : BitVec 32) : State := { State.reset with tb := some t, idx := some k }
/-- A state with TS and IDX written. -/
def withTS (t : List Nat) (k : BitVec 32) : State := { State.reset with ts := some t, idx := some k }
/-- A state whose host is about to do `acts`. -/
def script (acts : List HostAction) (s : State) : State := { s with pending := acts }

/-- STATUS.CODE and RESULT of a next state. -/
def outcome : Host.Outcome State Fault Refusal → Option (Nat × Result)
  | .next t => some (t.statusCode.toNat, t.result)
  | _ => none
/-- The trace of a next state. -/
def traceOf : Host.Outcome State Fault Refusal → Option (List LaneRead)
  | .next t => some t.trace
  | _ => none
/-- The fault record of a next state. -/
def faultsOf : Host.Outcome State Fault Refusal → Option (List ModelFault)
  | .next t => some t.faults
  | _ => none
/-- The refusal of an outcome. -/
def refusalOf : Host.Outcome State Fault Refusal → Option Refusal
  | .refused r => some r
  | _ => none

/-- The block b of section 2.3 of 95_test_vectors.md. -/
def blockB : List Byte := List.replicate 5 0xE1#8 ++ List.replicate 10 0#8 ++ [1#8]
/-- The block a of section 2.3. -/
def blockA : List Byte := [0, 1, 2, 3, 4, 5, 6, 7, 8, 9, 10, 11, 12, 13, 14, 15]
/-- The table of section 2.2. -/
def tableT : List (List Byte) := [[0, 0, 0, 1], [6, 7, 8, 9], [0, 0, 0, 3]]
/-- The prefix p of section 2.5, twelve bytes. -/
def nonceP : List Byte := List.replicate 12 0xAB#8

/-! ## Well-formedness: an ill-formed term for each check -/

/-- RSV = 1 (D-DEC-4). -/
theorem test_reserved_field_refused : wellFormedReserved 0x00000011#32 = false := by decide
/-- OP = 0x0 (D-DEC-1). -/
theorem test_opcode_zero_refused : wellFormedOpcode 0x00000000#32 = false := by decide
/-- OP = 0xB (D-DEC-2). -/
theorem test_opcode_above_ten_refused : wellFormedOpcode 0x0000000B#32 = false := by decide
/-- Bit 31 alone makes a word ill formed (D-DEC-5). -/
theorem test_word_bit31_refused : wellFormedWord 0x80000001#32 = false := by decide
theorem test_word_incw_accepted : wellFormedWord 0x0000000A#32 = true := by decide
/-- Beyond capacity, each kind of host write (R34); MAX_LANES = 128, SCALAR_W = 8. -/
theorem test_fits_refuses_long_A : fits State.reset.params (.a (List.replicate 129 0#8)) = false := by
  simp [fits, State.reset, State.resetOf, Config.vectorParams]
theorem test_fits_refuses_long_B : fits State.reset.params (.b (List.replicate 129 0#8)) = false := by
  simp [fits, State.reset, State.resetOf, Config.vectorParams]
theorem test_fits_refuses_many_entries : fits State.reset.params (.tb (List.replicate 129 [])) = false := by
  simp [fits, State.reset, State.resetOf, Config.vectorParams]
theorem test_fits_refuses_long_entry :
    fits State.reset.params (.tb [[], List.replicate 129 0#8]) = false := by
  simp [fits, State.reset, State.resetOf, Config.vectorParams]
theorem test_fits_refuses_many_scalars : fits State.reset.params (.ts (List.replicate 129 0)) = false := by
  simp [fits, State.reset, State.resetOf, Config.vectorParams]
theorem test_fits_refuses_wide_scalar : fits State.reset.params (.ts [255, 256]) = false := by decide
theorem test_fits_accepts_full_A : fits State.reset.params (.a (List.replicate 128 0#8)) = true := by
  simp [fits, State.reset, State.resetOf, Config.vectorParams]
/-- Parameters below R7's bounds. -/
theorem test_params_refuse_small : Config.paramsOk { scalarW := 0, maxLanes := 128 } = false ∧
    Config.paramsOk { scalarW := 1, maxLanes := 127 } = false := by decide

/-! ## Decoding: each word written out from R61 -/

theorem test_decode_b2bits : decode 0b00000000000000000000000000000001#32 = .operation .b2bits := by decide
theorem test_decode_bits2b : decode 0b00000000000000000000000000000010#32 = .operation .bits2b := by decide
theorem test_decode_parsebe : decode 0b00000000000000000000000000000011#32 = .operation .parsebe := by decide
theorem test_decode_parsele : decode 0b00000000000000000000000000000100#32 = .operation .parsele := by decide
theorem test_decode_revb : decode 0b00000000000000000000000000000101#32 = .operation .revb := by decide
theorem test_decode_sela : decode 0b00000000000000000000000000000110#32 = .operation .sela := by decide
theorem test_decode_sels : decode 0b00000000000000000000000000000111#32 = .operation .sels := by decide
theorem test_decode_xor : decode 0b00000000000000000000000000001000#32 = .operation .xor := by decide
theorem test_decode_mux : decode 0b00000000000000000000000000001001#32 = .operation .mux := by decide
theorem test_decode_incw : decode 0b00000000000000000000000000001010#32 = .operation .incw := by decide
/-- D-DEC-1 to D-DEC-5. -/
theorem test_decode_illegal : decode 0x00000000#32 = .illegal ∧ decode 0x0000000B#32 = .illegal ∧
    decode 0x0000000F#32 = .illegal ∧ decode 0x00000011#32 = .illegal ∧ decode 0x80000001#32 = .illegal := by decide
theorem test_decodeTableWord : decodeTableWord 32 10 = some .incw ∧ decodeTableWord 8 6 = some .sela ∧
    decodeTableWord 32 16 = none := by decide
/-- The word placed by withFetchWord is the one the next step runs: XOR of the zero blocks it is given (R120). -/
theorem test_withFetchWord_runs :
    outcome (step (State.reset.withFetchWord 32 8)) = some (1, .lanes (List.replicate 16 0#8)) := by decide
/-- Operands already written stay as they are (D-SELS-2). -/
theorem test_withFetchWord_keeps_operands :
    outcome (step ((withTS [5, 9, 2, 7] 1).withFetchWord 32 7)) = some (1, .scalar 9) := by decide

/-! ## Operations -/

/-- D-B2B-1. -/
theorem test_b2bits_A5 : outcome (exec .b2bits (withA [0xA5#8])) = some (1, .lanes [1, 0, 1, 0, 0, 1, 0, 1]) := by decide
/-- D-B2B-5: 17 lanes exceed MAX_LANES = 128. -/
theorem test_b2bits_capacity : outcome (exec .b2bits (withA (List.replicate 17 0#8))) = some (2, .none) := by decide
/-- D-BTB-1. -/
theorem test_bits2b_packs :
    outcome (exec .bits2b (withA [0, 0, 0, 0, 0, 0, 0, 1, 1, 1, 1, 1, 1, 1, 1, 1])) = some (1, .lanes [0x01, 0xFF]) := by
  decide
/-- D-BTB-2, D-BTB-3. -/
theorem test_bits2b_errors : outcome (exec .bits2b (withA [1, 1, 1, 1, 1, 1, 1])) = some (2, .none) ∧
    outcome (exec .bits2b (withA [0, 0, 0, 0, 0, 0, 2, 0])) = some (3, .none) := by decide
/-- D-PBE-3. -/
theorem test_parsebe_ends : outcome (exec .parsebe (withA [0x80, 0, 0, 0, 0, 0, 0, 0x01])) =
    some (1, .u64 0x8000000000000001#64) := by decide
/-- D-PBE-4. -/
theorem test_parsebe_short : outcome (exec .parsebe (withA (List.replicate 7 1#8))) = some (2, .none) := by decide
/-- D-PLE-1. -/
theorem test_parsele_counts : outcome (exec .parsele (withA [1, 2, 3, 4, 5, 6, 7, 8])) =
    some (1, .u64 0x0807060504030201#64) := by decide
/-- D-PLE-4. -/
theorem test_parsele_long : outcome (exec .parsele (withA (List.replicate 9 1#8))) = some (2, .none) := by decide
/-- D-REV-1. -/
theorem test_revb_three : outcome (exec .revb (withA [1, 2, 3])) = some (1, .lanes [3, 2, 1]) := by decide
/-- D-REV-2. -/
theorem test_revb_empty : outcome (exec .revb (withA [])) = some (1, .lanes []) := by decide
/-- D-SEL-2 (S11), D-SEL-4. -/
theorem test_sela_row : outcome (exec .sela (withTB tableT 1)) = some (1, .lanes [6, 7, 8, 9]) ∧
    outcome (exec .sela (withTB tableT 3)) = some (3, .none) := by decide
/-- D-SEL-6, D-SEL-8, D-SEL-9. -/
theorem test_sela_shapes : outcome (exec .sela (withTB [] 0)) = some (3, .none) ∧
    outcome (exec .sela (withTB [[], []] 1)) = some (1, .lanes []) ∧
    outcome (exec .sela (withTB [[1, 2], [3]] 5)) = some (2, .none) := by decide
/-- D-SELS-3, D-SELS-5. -/
theorem test_sels_entry : outcome (exec .sels (withTS [5, 9, 2, 7] 2)) = some (1, .scalar 2) ∧
    outcome (exec .sels (withTS [5, 9, 2, 7] 4)) = some (3, .none) := by decide
/-- D-SELS-6, D-SELS-7. -/
theorem test_sels_edges : outcome (exec .sels (withTS [] 0)) = some (3, .none) ∧
    outcome (exec .sels (withTS [255] 0)) = some (1, .scalar 255) := by decide
/-- D-XOR-2. -/
theorem test_xor_ones : outcome (exec .xor (withAB blockA (List.replicate 16 0xFF#8))) =
    some (1, .lanes [0xFF, 0xFE, 0xFD, 0xFC, 0xFB, 0xFA, 0xF9, 0xF8, 0xF7, 0xF6, 0xF5, 0xF4, 0xF3, 0xF2, 0xF1, 0xF0]) := by
  decide
/-- D-XOR-5. -/
theorem test_xor_short : outcome (exec .xor (withAB (List.replicate 15 0#8) (List.replicate 15 0#8))) = some (2, .none) := by
  decide
/-- D-MUX-1, D-MUX-2 (S12). -/
theorem test_mux_chooses : outcome (exec .mux (withABS (List.replicate 16 0#8) blockB 0)) = some (1, .lanes (List.replicate 16 0#8)) ∧
    outcome (exec .mux (withABS (List.replicate 16 0#8) blockB 1)) = some (1, .lanes blockB) := by decide
/-- D-MUX-5, D-MUX-6. -/
theorem test_mux_errors : outcome (exec .mux (withABS blockA blockA 3)) = some (3, .none) ∧
    outcome (exec .mux (withABS blockA (List.replicate 15 0#8) 0)) = some (2, .none) := by decide
/-- D-INC-4. -/
theorem test_incw_carries : outcome (exec .incw (withA (nonceP ++ [0, 0, 0xFF, 0xFF]))) =
    some (1, .lanes (nonceP ++ [0, 1, 0, 0])) := by decide
/-- D-INC-6: no carry into byte 11. -/
theorem test_incw_wraps : outcome (exec .incw (withA (List.replicate 16 0xFF#8))) =
    some (1, .lanes (List.replicate 12 0xFF#8 ++ [0, 0, 0, 0])) := by decide

/-! ## Commands and host actions -/

/-- D-DEC-6: the fault is recorded, STATUS and RESULT are not written. -/
theorem test_unwritten_operand :
    faultsOf (step (script [.wrCMD 0x00000008#32] (withA blockA))) = some [.unwrittenOperand .xor .B] ∧
    outcome (step (script [.wrCMD 0x00000008#32] (withA blockA))) = some (0, .none) := by decide
/-- K19: a reset keeps the fault record. -/
theorem test_reset_keeps_faults :
    faultsOf (step (script [.reset] { withA [1] with faults := [.unwrittenOperand .xor .B] })) =
      some [.unwrittenOperand .xor .B] := by decide
/-- D-DEC-7. -/
theorem test_illegal_needs_no_operand : outcome (step (script [.wrCMD 0x00000000#32] State.reset)) = some (4, .none) := by
  decide
/-- Access trace of D-SEL-4 and D-SEL-5: the same 13 lanes; of D-SEL-7: none (section 2.2). -/
theorem test_sela_trace : traceOf (exec .sela (withTB tableT 3)) = some [.idx, .tb 0 0, .tb 0 1, .tb 0 2, .tb 0 3,
      .tb 1 0, .tb 1 1, .tb 1 2, .tb 1 3, .tb 2 0, .tb 2 1, .tb 2 2, .tb 2 3] ∧
    traceOf (exec .sela (withTB tableT 0xFFFFFFFF#32)) = traceOf (exec .sela (withTB tableT 3)) ∧
    traceOf (exec .sela (withTB [[1, 2], [3]] 0)) = some [] := by decide
/-- P4: a read of RESULT while its kind is NONE records UnwrittenRead (R159). -/
theorem test_read_of_none :
    faultsOf (step (script [.rdRESULT] State.reset)) = some [.unwrittenRead .resultPayload] := by decide
/-- R34: a write beyond capacity has no move. -/
theorem test_write_beyond_capacity : refusalOf (step (script [.wr (.ts [256])] State.reset)) =
    some (.noMove .beyondCapacity) := by decide
/-- R70: mov leaves the write of the lanes it read as the next action. -/
theorem test_mov_reads_then_writes :
    (match step (script [.movA] { State.reset with result := .lanes [7#8] }) with
      | .next t => some (t.pending, t.observed)
      | _ => none) = some ([.wr (.a [7#8])], [.result (.lanes [7#8])]) := by decide

/-! ## Witnesses of the statements' premises, one for each clause, at its boundary -/

theorem witness_ResetEventRestoresRegisters :
    (script [.reset] { withA [1] with faults := [.unwrittenOperand .xor .B] }).pending = .reset :: [] := rfl
theorem witness_QuiescentWithoutHostAction : State.reset.pending = [] := rfl
theorem witness_StepRunsDecodedCommand :
    (script [.wrCMD 0x00000005#32] (withA [1])).pending = .wrCMD 0x00000005#32 :: [] ∧
      decode 0x00000005#32 = .operation .revb := by decide
/-- OP = 0; OP = 0xB and 0xF; RSV = 1 with a legal OP. -/
theorem witness_IllegalCommandOnlySetsStatus :
    (script [.wrCMD 0#32] State.reset).pending = .wrCMD 0#32 :: [] ∧
    (0x00000000#32).extractLsb' 0 4 = 0#4 ∧ 0xB ≤ ((0x0000000B#32).extractLsb' 0 4).toNat ∧
    0xB ≤ ((0x0000000F#32).extractLsb' 0 4).toNat ∧ (0x00000011#32).extractLsb' 4 28 ≠ 0#28 := by decide
theorem witness_EncodeDecodeAgree : wellFormed .incw = true ∧ decode 0x0000000A#32 = .operation .incw := by decide
/-- A command that completes although B and SEL are unwritten, and one that faults. -/
theorem witness_OnlyListedRegistersCauseFaults :
    faultsOf (exec .incw (withA blockA)) = some [] ∧ (∃ x ∈ reads .mux, readOperand (withAB blockA blockB) x = none) ∧
    faultsOf (exec .mux (withAB blockA blockB)) = some [.unwrittenOperand .mux .SEL] := by decide
/-- The first register of the list, and the last. -/
theorem witness_UnwrittenOperandFaults :
    (reads .mux).find? (fun y => (readOperand State.reset y).isNone) = some .A ∧
    (reads .mux).find? (fun y => (readOperand (withAB blockA blockB) y).isNone) = some .SEL := by decide
theorem witness_WrittenOperandsComplete :
    ∀ x ∈ reads .mux, readOperand (withABS blockA blockB 1) x ≠ none := by decide
/-- A success, a LengthError, a RangeError and an illegal word, with no fault recorded. -/
theorem witness_FailedCommandKeepsResult :
    outcome (step (script [.wrCMD 0x00000005#32] (withA [1]))) = some (1, .lanes [1]) ∧
    outcome (step (script [.wrCMD 0x00000003#32] (withA [1]))) = some (2, .none) ∧
    outcome (step (script [.wrCMD 0x00000006#32] (withTB tableT 3))) = some (3, .none) ∧
    outcome (step (script [.wrCMD 0x0000000B#32] (withA [1]))) = some (4, .none) ∧
    faultsOf (step (script [.wrCMD 0x00000006#32] (withTB tableT 3))) = some (withTB tableT 3).faults := by decide
/-- Two states that differ in B, RESULT and STATUS and agree on what REVB reads; and two that both fault. -/
theorem witness_OutputDependsOnReadsOnly :
    agreeOnReads .revb (withA [1, 2]) { withAB [1, 2] [9] with result := .u64 0, statusCode := 1 } ∧
    outcome (exec .revb (withA [1, 2])) = some (1, .lanes [2, 1]) ∧
    agreeOnReads .revb State.reset (withTS [1] 0) ∧
    faultsOf (exec .revb State.reset) = some [.unwrittenOperand .revb .A] := by
  refine ⟨⟨rfl, ?_⟩, by decide, ⟨rfl, ?_⟩, by decide⟩ <;> decide
/-- A command that completes, and one that faults. -/
theorem witness_CommandTwiceChangesNothingMore :
    faultsOf (exec .incw (withA (nonceP ++ [0, 0, 0, 0]))) = some (withA (nonceP ++ [0, 0, 0, 0])).faults ∧
    faultsOf (exec .incw State.reset) = some [.unwrittenOperand .incw .A] := by decide
/-- Two states that differ in IDX and in every lane, the first a success and the second a RangeError. -/
theorem witness_AccessTraceIgnoresSecrets :
    publicShape (withTB tableT 1) = publicShape (withTB [[9, 9, 9, 9], [8, 8, 8, 8], [7, 7, 7, 7]] 3) ∧
    outcome (exec .sela (withTB tableT 1)) = some (1, .lanes [6, 7, 8, 9]) := by decide
/-- An illegal word, a command that ends in LENGTH_ERROR, one that does not, and one that faults. -/
theorem witness_CanonicalTraceIsRead :
    (decode 0x80000001#32 = .illegal ∧ outcome (step (script [.wrCMD 0x80000001#32] State.reset)) = some (4, .none)) ∧
    outcome (exec .xor (withAB blockA [])) = some (2, .none) ∧
    outcome (exec .sels (withTS [] 0)) = some (3, .none) ∧
    faultsOf (exec .sels (withTS [] 0)) = some (withTS [] 0).faults ∧
    faultsOf (exec .sels State.reset) = some [.unwrittenOperand .sels .TS] := by decide
/-- 16 lanes fit exactly, 17 do not. -/
theorem witness_B2bitsExpandsMsbFirst :
    (withA blockA).a = some blockA ∧ 8 * blockA.length ≤ (withA blockA).params.maxLanes ∧
    (withA (0#8 :: blockA)).params.maxLanes < 8 * (0#8 :: blockA).length ∧ 15 < blockA.length ∧ 7 < 8 := by decide
/-- Lengths 7 and 8; a lane of 2 and lanes of 0 and 1. -/
theorem witness_Bits2bPacksMsbFirst :
    [1#8, 1, 1, 1, 1, 1, 1].length % 8 ≠ 0 ∧
    ([0#8, 0, 0, 0, 0, 0, 2, 0].length % 8 = 0 ∧ ∃ b ∈ [0#8, 0, 0, 0, 0, 0, 2, 0], 1 < b.toNat) ∧
    ([1#8, 0, 1, 1, 1, 1, 1, 1].length % 8 = 0 ∧ (∀ b ∈ [1#8, 0, 1, 1, 1, 1, 1, 1], b.toNat ≤ 1) ∧
      0 < [1#8, 0, 1, 1, 1, 1, 1, 1].length / 8) := by decide
/-- 8 lanes, 7 and 9. -/
theorem witness_ParsebeReadsBigEndian :
    (withA (List.replicate 8 1#8)).a = some (List.replicate 8 1#8) ∧ (List.replicate 8 1#8).length = 8 ∧
    (List.replicate 7 1#8).length ≠ 8 ∧ (List.replicate 9 1#8).length ≠ 8 := by decide
/-- 8 lanes, 7 and 9. -/
theorem witness_ParseleReadsLittleEndian :
    (withA (List.replicate 8 255#8)).a = some (List.replicate 8 255#8) ∧ (List.replicate 8 255#8).length = 8 ∧
    (List.replicate 7 255#8).length ≠ 8 ∧ (List.replicate 9 255#8).length ≠ 8 := by decide
theorem witness_RevbReversesLanes : (withA [1, 2, 3]).a = some [1, 2, 3] ∧ 2 < [1#8, 2, 3].length := by decide
theorem witness_CodecRoundTrip :
    ((withA blockA).a = some blockA ∧ 8 * blockA.length ≤ (withA blockA).params.maxLanes) ∧
    ((withA [1, 0, 1, 0, 0, 1, 0, 1]).a = some [1, 0, 1, 0, 0, 1, 0, 1] ∧
      [1#8, 0, 1, 0, 0, 1, 0, 1].length ≤ (withA [1, 0, 1, 0, 0, 1, 0, 1]).params.maxLanes ∧
      [1#8, 0, 1, 0, 0, 1, 0, 1].length % 8 = 0 ∧ ∀ b ∈ [1#8, 0, 1, 0, 0, 1, 0, 1], b.toNat ≤ 1) := by decide
theorem witness_ParseOrdersAgreeOnReversal :
    (withA [1, 2, 3, 4, 5, 6, 7, 8]).a = some [1, 2, 3, 4, 5, 6, 7, 8] ∧ [1#8, 2, 3, 4, 5, 6, 7, 8].length = 8 := by decide
theorem witness_RevbIsInvolution : (withA [1, 2]).a = some [1, 2] := by decide
/-- A ragged table; the last index and the first one outside, N = 0 too. -/
theorem witness_SelaSelectsEntry :
    ((withTB tableT 2).tb = some tableT ∧ (withTB tableT 2).idx = some 2) ∧
    (∃ d ∈ [[1#8, 2], [3]], ∃ e ∈ [[1#8, 2], [3]], d.length ≠ e.length) ∧
    ((∀ d ∈ tableT, ∀ e ∈ tableT, d.length = e.length) ∧ tableT[(2#32).toNat]? = some [0, 0, 0, 3] ∧
      tableT.length ≤ (3#32).toNat) ∧
    ([] : List (List Byte)).length ≤ (0#32).toNat := by decide
/-- The largest 8-bit scalar at the last index, the first index outside, N = 0. -/
theorem witness_SelsSelectsScalar :
    ((withTS [5, 255] 1).ts = some [5, 255] ∧ (withTS [5, 255] 1).idx = some 1) ∧
    [5, 255][(1#32).toNat]? = some 255 ∧ 255 < 2 ^ (withTS [5, 255] 1).params.scalarW ∧
    [5, 255].length ≤ (2#32).toNat ∧ ([] : List Nat).length ≤ (0#32).toNat := by decide
theorem witness_IndexOutsideTableIsRangeError :
    ((withTB tableT 3).tb = some tableT ∧ (withTB tableT 3).idx = some 3 ∧
      (∀ d ∈ tableT, ∀ e ∈ tableT, d.length = e.length) ∧ tableT.length ≤ (3#32).toNat) ∧
    ((withTS [5] 1).ts = some [5] ∧ (withTS [5] 1).idx = some 1 ∧ [5].length ≤ (1#32).toNat) := by decide
theorem witness_SelsMatchesSelaOnOneLaneEntries :
    let s : State := { withTS [5, 9] 1 with tb := some [[5], [9]] }
    s.params.scalarW = 8 ∧ s.ts = some ([5#8, 9].map BitVec.toNat) ∧ s.tb = some ([5#8, 9].map fun x => [x]) ∧
      s.idx = some 1 := by decide
/-- Two blocks; an operand of 15 lanes on either side. -/
theorem witness_XorCombinesBlocks :
    ((withAB blockA blockB).a = some blockA ∧ (withAB blockA blockB).b = some blockB) ∧
    (blockA.length = 16 ∧ blockB.length = 16) ∧ (blockA.tail.length ≠ 16 ∨ blockB.length ≠ 16) ∧
    (blockA.length ≠ 16 ∨ blockB.tail.length ≠ 16) := by decide
theorem witness_XorLaws :
    (withAB blockA blockB).a = some blockA ∧ (withAB blockA blockB).b = some blockB ∧ blockA.length = 16 ∧
      blockB.length = 16 := by decide
/-- SEL = 0, 1 and 2; a short operand. -/
theorem witness_MuxCombinesByXorFormula :
    ((withABS blockA blockB 2).a = some blockA ∧ (withABS blockA blockB 2).b = some blockB ∧
      (withABS blockA blockB 2).sel = some 2) ∧
    (blockA.length = 16 ∧ blockB.length = 16 ∧ 1 < (2#8).toNat ∧ (1#8).toNat ≤ 1 ∧ (0#8).toNat ≤ 1) ∧
    (blockA.tail.length ≠ 16 ∨ blockB.length ≠ 16) := by decide
theorem witness_MuxChoosesBlock :
    ((withABS blockA blockB 1).a = some blockA ∧ (withABS blockA blockB 1).b = some blockB ∧
      (withABS blockA blockB 1).sel = some 1#8 ∧ blockA.length = 16 ∧ blockB.length = 16 ∧ (1#8).toNat ≤ 1) ∧
    ((withABS (List.replicate 16 0#8) blockB 1).a = some (List.replicate 16 0#8) ∧
      (withABS (List.replicate 16 0#8) blockB 1).b = some blockB ∧
      (withABS (List.replicate 16 0#8) blockB 1).sel = some 1#8) := by decide
/-- 16 lanes and 15. -/
theorem witness_IncwIncrementsCounterWord :
    (withA (nonceP ++ [0xFF, 0xFF, 0xFF, 0xFF])).a = some (nonceP ++ [0xFF, 0xFF, 0xFF, 0xFF]) ∧
    (nonceP ++ [0xFF#8, 0xFF, 0xFF, 0xFF]).length = 16 ∧ (List.replicate 15 0#8).length ≠ 16 := by decide
theorem witness_RepeatedIncrementAddsCount : (withA blockA).a = some blockA ∧ blockA.length = 16 := by decide
/-- A full A, and one lane more. -/
theorem witness_HostWriteSetsOneRegister :
    (script [.wr (.a (List.replicate 128 0#8))] State.reset).pending = .wr (.a (List.replicate 128 0#8)) :: [] ∧
    withinCapacity State.reset.params (.a (List.replicate 128 0#8)) ∧
    ¬ withinCapacity State.reset.params (.a (List.replicate 129 0#8)) := by
  simp [script, withinCapacity, State.reset, State.resetOf, Config.vectorParams]
theorem witness_UnwrittenReadFaults :
    ((script [.rd .A] State.reset).pending = .rd .A :: [] ∧ readOperand State.reset .A = none ∧
      readOperand (withA [1]) .A = some (.a [1])) ∧
    ((script [.rdRESULT] State.reset).pending = .rdRESULT :: [] ∧ State.reset.result = .none ∧
      { State.reset with result := .u64 1 }.result ≠ .none) ∧
    (script [.rdKIND] State.reset).pending = .rdKIND :: [] ∧
    (script [.rdSTATUS] State.reset).pending = .rdSTATUS :: [] := by decide
/-- A read, a write, and a command that records no fault. -/
theorem witness_StatusShowsCodeInThreeBits :
    (script [.rdSTATUS] State.reset).pending = .rdSTATUS :: [] ∧
    (script [.wrSTATUS 1] State.reset).pending = .wrSTATUS 1 :: [] ∧
    faultsOf (step (script [.wrCMD 0x00000005#32] (withA [1]))) = some (withA [1]).faults := by decide
theorem witness_ForbiddenActionsAreRefused :
    (script [.wrSTATUS 1] State.reset).pending = .wrSTATUS 1 :: [] ∧
    (script [.wrRESULT .none] State.reset).pending = .wrRESULT .none :: [] ∧
    (script [.rdCMD] State.reset).pending = .rdCMD :: [] ∧
    (script [.wrLane .A 0 1] State.reset).pending = .wrLane .A 0 1 :: [] := by decide
theorem witness_MovCopiesResultLanes :
    let s : State := { State.reset with result := .lanes (List.replicate 128 1#8) }
    (script [.movA] s).pending = .movA :: [] ∧ (script [.movB] s).pending = .movB :: [] ∧
      s.result = .lanes (List.replicate 128 1#8) ∧ (List.replicate 128 1#8).length ≤ s.params.maxLanes ∧
      State.reset.result = .none ∧ { s with result := .u64 5 }.result = .u64 5 ∧
      { s with result := .scalar 5 }.result = .scalar 5 := by
  simp [script, State.reset, State.resetOf, Config.vectorParams]
/-- A write that changes its register, and a reset that does. -/
theorem witness_OnlyHostWritesChangeOperands :
    (∃ t, step (script [.wr (.a [1])] State.reset) = .next t ∧ readOperand t .A ≠ readOperand State.reset .A) ∧
    ∃ t, step (script [.reset] (withA [1])) = .next t ∧ readOperand t .A ≠ readOperand (withA [1]) .A :=
  ⟨⟨_, rfl, by decide⟩, ⟨_, rfl, by decide⟩⟩
theorem witness_WrittenStaysWrittenUntilReset :
    let s : State := { withA [1] with result := .u64 5 }
    (∃ t, step (script [.wrCMD 0x00000005#32] s) = .next t) ∧ readOperand s .A ≠ none ∧ s.result ≠ .none ∧
      (∃ t, step (script [.wr (.b [1])] s) = .next t) ∧ ∃ t, step (script [.reset] s) = .next t :=
  ⟨⟨_, rfl⟩, by decide, by decide, ⟨_, rfl⟩, ⟨_, rfl⟩⟩
/-- A step that adds to a record that is not empty. -/
theorem witness_RecordedFaultsStay :
    faultsOf (step (script [.rd .B] { withA [1] with faults := [.unwrittenOperand .xor .B] })) =
      some [.unwrittenOperand .xor .B, .unwrittenRead (.operand .B)] := by decide
theorem witness_InvariantHoldsAtReset :
    Config.paramsOk { scalarW := 1, maxLanes := 128 } = true ∧ Config.paramsOk { scalarW := 254, maxLanes := 4096 } = true := by
  decide
/-- A state beyond reset, with a recorded fault, that meets the invariant and steps. -/
theorem witness_StepKeepsStateInvariant :
    let s : State := { withA [1] with statusCode := codeOk, result := .u64 5, faults := [.unwrittenOperand .xor .B] }
    StateInv (script [.wrCMD 0x00000005#32] s) ∧ ∃ t, step (script [.wrCMD 0x00000005#32] s) = .next t := by
  refine ⟨⟨by decide, fun x => by cases x <;> decide, by decide, by decide, by decide, by decide, ?_⟩, ⟨_, rfl⟩⟩
  intro op x h
  obtain ⟨rfl, rfl⟩ : op = .xor ∧ x = .B := by simpa [script] using h
  decide
theorem witness_InstancesStepIndependently :
    ∃ q r, (0 : Nat) ≠ 1 ∧
      stepInstance 0 [script [.reset] (withA [1]), script [.wr (.sel 1)] State.reset] = .next q ∧
      stepInstance 1 q = .next r := ⟨_, _, by decide, rfl, rfl⟩

end Sys2Proof.Tests
end

namespace Sys2Proof.Proofs

open Sys2Proof.Machine Sys2Proof.Laws

/-! SUPPORT. The family of the registers: the state after reset (R37), STATUS (R31) and the registers a command's output depends
on (R36). -/

/-! ## Reset -/

/-- Every operand register is unwritten after reset, whatever the parameters (R37). -/
@[simp] theorem readOperand_resetOf (p : Config.Params) (x : OperandReg) : readOperand (State.resetOf p) x = none := by
  cases x <;> rfl

/-- Settles O1. -/
theorem resetLeavesRegistersUnwritten : Obligations.ResetLeavesRegistersUnwritten :=
  ⟨readOperand_resetOf _, rfl, rfl, rfl⟩

/-! ## STATUS -/

/-- STATUS[2:0] is CODE (R31). -/
@[simp] theorem statusWord_low (s : State) : (statusWord s).extractLsb' 0 3 = s.statusCode :=
  BitVec.extractLsb'_append_eq_right

/-- STATUS[31:3] reads 0 (R31). -/
@[simp] theorem statusWord_high (s : State) : (statusWord s).extractLsb' 3 29 = 0#29 :=
  BitVec.extractLsb'_append_eq_left

/-! ## One command -/

/-- A step performs the oldest action of the host's script, taken off it (R50). -/
theorem step_of_pending {s : State} {act : HostAction} {rest : List HostAction} (h : s.pending = act :: rest) :
    step s = perform act { s with pending := rest } := by
  simp [step, nextAction, h]

/-- A recorded fault shows in the fault record (R158). -/
theorem operandFault_faults_ne (op : Instr) (x : OperandReg) (s : State) :
    (operandFault op x s).faults ≠ s.faults := by
  simp

/-- A commit writes one of the codes OK, LENGTH_ERROR and RANGE_ERROR (R152, R153). -/
theorem commit_statusCode_bounds (s : State) (r : OpRun) :
    1 ≤ (commit s r).statusCode.toNat ∧ (commit s r).statusCode.toNat ≤ 3 := by
  cases r <;> simp

/-- What Execute(w) can do (R66): an illegal word sets its code; a legal one commits an outcome of its operation, or records the fault
of an unwritten operand register. -/
theorem execute_next {w : CommandWord} {s t : State} (h : execute w s = .next t) :
    (decode w = .illegal ∧ t = illegalCommand s) ∨
    ∃ i, decode w = .operation i ∧
      ((∃ r, t = commit s r ∧ ∀ tr, r ≠ .ok .none tr) ∨ ∃ x, t = operandFault i x s) := by
  unfold execute at h
  split at h
  · rename_i i hi
    rcases exec_next h with ⟨-, hr⟩ | ⟨x, -, ht⟩
    · exact .inr ⟨i, hi, .inl hr⟩
    · exact .inr ⟨i, hi, .inr ⟨x, ht⟩⟩
  · cases h
    exact .inl ⟨‹_›, rfl⟩

/-- A command that records no fault ends with one of the codes 1 to 4 (R31, R32). -/
theorem execute_statusCode_bounds {w : CommandWord} {s t : State} (h : execute w s = .next t)
    (hf : t.faults = s.faults) : 1 ≤ t.statusCode.toNat ∧ t.statusCode.toNat ≤ 4 := by
  rcases execute_next h with ⟨-, rfl⟩ | ⟨i, -, ⟨r, rfl, -⟩ | ⟨x, rfl⟩⟩
  · simp
  · have := commit_statusCode_bounds s r
    omega
  · exact absurd hf (operandFault_faults_ne i x s)

/-- Settles O38: the word read is `statusWord`, and Execute is the only writer of the code. -/
theorem statusShowsCodeInThreeBits : Obligations.StatusShowsCodeInThreeBits := by
  refine ⟨fun s rest h => ⟨statusWord s, step_of_pending h, statusWord_low s, statusWord_high s⟩,
    fun s v rest h => step_of_pending h, fun s w rest t h ht hf => ?_⟩
  rw [step_of_pending h] at ht
  exact execute_statusCode_bounds ht hf

/-! ## The output of a command depends on the registers it reads -/

/-- Two states hold the same contents in a register exactly when the fields behind it are equal (R35). -/
theorem readOperand_eq_iff (s t : State) (x : OperandReg) :
    readOperand s x = readOperand t x ↔
      match x with
      | .A => s.a = t.a
      | .B => s.b = t.b
      | .TB => s.tb = t.tb
      | .TS => s.ts = t.ts
      | .IDX => s.idx = t.idx
      | .SEL => s.sel = t.sel := by
  cases x <;> exact (Option.map_injective fun _ _ h => by cases h; rfl).eq_iff

/-- Two outcomes of a command, from `s` and from `t`, that are the same output: one outcome of the operation is committed in both, or the
fault of one unwritten register is recorded in both. -/
def SameOutput (op : Instr) (s t : State) (o o' : Host.Outcome State Fault Refusal) : Prop :=
  (∃ r, o = .next (commit s r) ∧ o' = .next (commit t r)) ∨
  ∃ x, o = .next (operandFault op x s) ∧ o' = .next (operandFault op x t)

/-- The same, from two next states. -/
theorem SameOutput.of_next {op : Instr} {s t s' t' : State} (h : SameOutput op s t (.next s') (.next t')) :
    (∃ r, s' = commit s r ∧ t' = commit t r) ∨ ∃ x, s' = operandFault op x s ∧ t' = operandFault op x t := by
  simpa [SameOutput] using h

/-- A commit of one outcome in two states is the same output. -/
theorem sameOutput_commit (op : Instr) (s t : State) (r : OpRun) :
    SameOutput op s t (.next (commit s r)) (.next (commit t r)) :=
  .inl ⟨r, rfl, rfl⟩

/-- The operand check of a register with equal contents keeps two outputs the same (R66, R158). -/
theorem sameOutput_fetch {α : Type} {op : Instr} {s t : State} {r r' : Option α}
    {k k' : α → Host.Outcome State Fault Refusal} (x : OperandReg) (hr : r = r')
    (hk : ∀ v, SameOutput op s t (k v) (k' v)) : SameOutput op s t (fetch op x s r k) (fetch op x t r' k') := by
  subst hr
  cases r with
  | none => exact .inr ⟨x, rfl, rfl⟩
  | some v => exact hk v

/-- A command gives the same output in two states that agree on the parameters and on the registers it reads (R36). -/
theorem exec_sameOutput {op : Instr} {s t : State} (h : agreeOnReads op s t) :
    SameOutput op s t (exec op s) (exec op t) := by
  obtain ⟨hp, hr⟩ := h
  cases op <;> simp only [reads, List.forall_mem_cons, readOperand_eq_iff] at hr
  case b2bits =>
    obtain ⟨ha, -⟩ := hr
    simp only [exec, execB2bits, hp]
    exact sameOutput_fetch _ ha fun _ => sameOutput_commit ..
  case bits2b | parsebe | parsele | revb | incw =>
    obtain ⟨ha, -⟩ := hr
    exact sameOutput_fetch _ ha fun _ => sameOutput_commit ..
  case sela =>
    obtain ⟨htb, hidx, -⟩ := hr
    exact sameOutput_fetch _ htb fun _ => sameOutput_fetch _ hidx fun _ => sameOutput_commit ..
  case sels =>
    obtain ⟨hts, hidx, -⟩ := hr
    simp only [exec, execSels, hp]
    exact sameOutput_fetch _ hts fun _ => sameOutput_fetch _ hidx fun _ => sameOutput_commit ..
  case xor =>
    obtain ⟨ha, hb, -⟩ := hr
    exact sameOutput_fetch _ ha fun _ => sameOutput_fetch _ hb fun _ => sameOutput_commit ..
  case mux =>
    obtain ⟨ha, hb, hsel, -⟩ := hr
    exact sameOutput_fetch _ ha fun _ => sameOutput_fetch _ hb fun _ => sameOutput_fetch _ hsel fun _ =>
      sameOutput_commit ..

/-- The code a commit writes, and the RESULT it writes with OK, are those of the outcome, whatever the state (R66, R153). -/
theorem commit_output_eq (s t : State) (r : OpRun) :
    (commit t r).statusCode = (commit s r).statusCode ∧
      ((commit s r).statusCode = codeOk → (commit t r).result = (commit s r).result) := by
  cases r with
  | ok v tr => simp
  | lengthError => exact ⟨rfl, fun h => absurd h (by decide : codeLengthError ≠ codeOk)⟩
  | rangeError tr => exact ⟨rfl, fun h => absurd h (by decide : codeRangeError ≠ codeOk)⟩

/-- Settles O14: both commands commit one outcome, or both record one fault. -/
theorem outputDependsOnReadsOnly : Obligations.OutputDependsOnReadsOnly := by
  intro i s t s' t' hagree hs ht
  have same := exec_sameOutput hagree
  rw [hs, ht] at same
  rcases same.of_next with ⟨r, rfl, rfl⟩ | ⟨x, rfl, rfl⟩
  · exact ⟨by simp, fun _ => commit_output_eq s t r⟩
  · exact ⟨by simp, fun h => absurd h (operandFault_faults_ne i x s)⟩

end Sys2Proof.Proofs

namespace Sys2Proof.Proofs

open Sys2Proof.Machine Sys2Proof.Laws

/-! SUPPORT. The family of the encoding: what the decoder answers (R60 to R64, R68), the illegal command (R64) and the registers a
command faults on (R67). -/

/-! ## The decoder -/

/-- A number selects an operation exactly when it is that operation's code (R61). -/
theorem operationOfCode_eq_some_iff (n : Nat) (i : Instr) : operationOfCode n = some i ↔ n = (codeOf i).toNat := by
  constructor
  · intro h
    unfold operationOfCode at h
    split at h <;> cases h <;> rfl
  · rintro rfl
    cases i <;> rfl

/-- The reserved codes are 0x0 and those from 0xB on (R61). -/
theorem operationOfCode_eq_none_iff (n : Nat) : operationOfCode n = none ↔ n = 0 ∨ 11 ≤ n := by
  constructor
  · intro h
    by_contra hn
    have hlo : 1 ≤ n := by omega
    have hhi : n ≤ 10 := by omega
    interval_cases n <;> cases h
  · rintro (rfl | hn)
    · rfl
    · obtain ⟨k, rfl⟩ := Nat.exists_eq_add_of_le' hn
      rfl

/-- A word decodes to an operation exactly when RSV is 0 and OP is its code (R60 to R62). -/
theorem decode_eq_operation_iff (w : CommandWord) (i : Instr) :
    decode w = .operation i ↔ rsvField w = 0#28 ∧ opField w = codeOf i := by
  rw [← BitVec.toNat_inj (x := opField w), ← operationOfCode_eq_some_iff]
  by_cases hrsv : rsvField w = 0#28
  · cases hcode : operationOfCode (opField w).toNat <;> simp [decode, hrsv, hcode]
  · simp [decode, hrsv]

/-- A word is illegal exactly when RSV is not 0 or OP is a reserved code (R64, R68). -/
theorem decode_eq_illegal_iff (w : CommandWord) :
    decode w = .illegal ↔ rsvField w ≠ 0#28 ∨ (opField w).toNat = 0 ∨ 11 ≤ (opField w).toNat := by
  rw [← operationOfCode_eq_none_iff]
  by_cases hrsv : rsvField w = 0#28
  · cases hcode : operationOfCode (opField w).toNat <;> simp [decode, hrsv, hcode]
  · simp [decode, hrsv]

/-- An operation is in a row of the table of R61 exactly with its own code. -/
theorem mem_codeTable_iff (i : Instr) (c : BitVec 4) :
    (i, c) ∈ [(Instr.b2bits, 0x1#4), (.bits2b, 0x2#4), (.parsebe, 0x3#4), (.parsele, 0x4#4), (.revb, 0x5#4),
        (.sela, 0x6#4), (.sels, 0x7#4), (.xor, 0x8#4), (.mux, 0x9#4), (.incw, 0xA#4)] ↔ c = codeOf i := by
  cases i <;> simp [codeOf]

/-- Settles O6. -/
theorem decoderReadsOperationCodes : Obligations.DecoderReadsOperationCodes := by
  intro w i
  rw [decode_eq_operation_iff, mem_codeTable_iff]
  rfl

/-! ## The illegal command -/

/-- Execute of an illegal word is the illegal command (R64, R66). -/
theorem execute_of_illegal {w : CommandWord} (h : decode w = .illegal) (s : State) :
    execute w s = .next (illegalCommand s) := by
  simp [execute, h]

/-- Settles O5: the word decodes to the illegal verdict, so Execute reaches no operand check. -/
theorem illegalCommandOnlySetsStatus : Obligations.IllegalCommandOnlySetsStatus := by
  intro s w rest hpending hword
  have hillegal : decode w = .illegal := by
    rw [decode_eq_illegal_iff]
    rcases hword with hzero | hhigh | hrsv
    · exact .inr (.inl (congrArg BitVec.toNat hzero))
    · exact .inr (.inr hhigh)
    · exact .inl hrsv
  rw [step_of_pending hpending]
  exact ⟨[], execute_of_illegal hillegal _⟩

/-! ## The registers a command faults on -/

/-- The operand check names a register exactly when one of `Reads(op)` is unwritten (R66, R67). -/
theorem firstUnwritten_isSome_iff (s : State) (op : Instr) :
    (firstUnwritten s op).isSome ↔ ∃ x ∈ reads op, readOperand s x = none := by
  simp [firstUnwritten, isWritten]

/-- A command records a fault exactly when a register of `Reads(op)` is unwritten (R67, R158). -/
theorem exec_faults_ne_iff {i : Instr} {s t : State} (h : exec i s = .next t) :
    t.faults ≠ s.faults ↔ ∃ x ∈ reads i, readOperand s x = none := by
  rw [← firstUnwritten_isSome_iff]
  rcases exec_next h with ⟨hnone, r, rfl, -⟩ | ⟨x, hsome, rfl⟩
  · simp [hnone]
  · simp [hsome]

/-- Settles O10. -/
theorem onlyListedRegistersCauseFaults : Obligations.OnlyListedRegistersCauseFaults :=
  ⟨by decide, fun _ _ _ => exec_faults_ne_iff⟩

end Sys2Proof.Proofs

namespace Sys2Proof.Proofs

open Sys2Proof.Machine Sys2Proof.Laws

/-! SUPPORT. The family of the codec: B2BITS (R80, R81), BITS2B (R83, R84), PARSELE (R88) and REVB (R90). -/

/-! ## The lanes of a buffer -/

@[simp] theorem laneValue_cons_zero (x : Byte) (xs : List Byte) : laneValue (x :: xs) 0 = x.toNat := rfl

@[simp] theorem laneValue_cons_succ (x : Byte) (xs : List Byte) (i : Nat) :
    laneValue (x :: xs) (i + 1) = laneValue xs i := rfl

/-- The lanes of a joined buffer below the first part's length are those of the first part. -/
theorem laneValue_append_left {xs : List Byte} (ys : List Byte) {i : Nat} (hi : i < xs.length) :
    laneValue (xs ++ ys) i = laneValue xs i := by
  rw [laneValue, List.getD_append _ _ _ _ hi, laneValue]

/-- The lanes of a joined buffer from the first part's length on are those of the second part. -/
theorem laneValue_append_right (xs ys : List Byte) (i : Nat) :
    laneValue (xs ++ ys) (xs.length + i) = laneValue ys i := by
  rw [laneValue, List.getD_append_right _ _ _ _ (Nat.le_add_right ..), Nat.add_sub_cancel_left, laneValue]

/-- In a bit vector every lane is 0 or 1, those past its end too (R24). -/
theorem laneValue_le_one {a : List Byte} (hbits : ∀ b ∈ a, b.toNat ≤ 1) (i : Nat) : laneValue a i ≤ 1 := by
  by_cases hi : i < a.length
  · rw [laneValue, List.getD_eq_getElem _ _ hi]
    exact hbits _ (List.getElem_mem hi)
  · rw [laneValue, List.getD_eq_default _ _ (by omega)]
    decide

/-! ## B2BITS -/

/-- B2BITS of a written A commits its operation's outcome (R66). -/
theorem exec_b2bits_of_written {s : State} {a : List Byte} (ha : s.a = some a) :
    exec .b2bits s = .next (commit s (opB2bits s.params.maxLanes a)) := by
  simp [exec, execB2bits, ha]

/-- Within capacity B2BITS expands every byte (R80). -/
theorem opB2bits_of_fits {n : Nat} {a : List Byte} (h : 8 * a.length ≤ n) :
    opB2bits n a = .ok (.lanes (a.flatMap byteToBits)) (sweepLanes .a 0 a).trace := by
  simp [opB2bits, Nat.not_lt.mpr h]

/-- Beyond capacity B2BITS is a LengthError (R81). -/
theorem opB2bits_of_exceeds {n : Nat} {a : List Byte} (h : n < 8 * a.length) : opB2bits n a = .lengthError := by
  simp [opB2bits, h]

/-- Lane `m` of a byte's expansion is its bit `7 - m` (R43, R80). -/
theorem laneValue_byteToBits (v : Byte) {m : Nat} (hm : m < 8) :
    laneValue (byteToBits v) m = v.toNat / 2 ^ (7 - m) % 2 := by
  have hbit : bitOf v.toNat (7 - m) < 2 ^ 8 := by
    unfold bitOf
    omega
  rw [laneValue, List.getD_eq_getElem _ _ (by simpa using hm)]
  simp only [byteToBits, List.getElem_map, List.getElem_range, BitVec.toNat_ofNat, Nat.mod_eq_of_lt hbit]
  rfl

/-- Lane `8k + m` of the expansion of a buffer is bit `7 - m` of its byte `k` (R80, R82). -/
theorem laneValue_flatMap_byteToBits {a : List Byte} {k m : Nat} (hk : k < a.length) (hm : m < 8) :
    laneValue (a.flatMap byteToBits) (8 * k + m) = laneValue a k / 2 ^ (7 - m) % 2 := by
  induction a generalizing k with
  | nil => simp at hk
  | cons x xs ih =>
    rw [List.flatMap_cons]
    cases k with
    | zero =>
      rw [Nat.mul_zero, Nat.zero_add, laneValue_append_left _ (by simpa using hm), laneValue_byteToBits x hm]
      rfl
    | succ k =>
      have hindex : 8 * (k + 1) + m = (byteToBits x).length + (8 * k + m) := by
        rw [byteToBits_length]
        omega
      rw [hindex, laneValue_append_right, ih (by simpa using hk), laneValue_cons_succ]

/-- Settles O18: the expansion of A lane by lane, within capacity. -/
theorem b2bitsExpandsMsbFirst : Obligations.B2bitsExpandsMsbFirst := by
  refine ⟨by decide, fun s a ha => ⟨fun hfits => ?_, fun hexceeds => ?_⟩⟩ <;> rw [exec_b2bits_of_written ha]
  · rw [opB2bits_of_fits hfits]
    exact ⟨_, _, rfl, flatMap_byteToBits_length a, fun _ _ => laneValue_flatMap_byteToBits⟩
  · rw [opB2bits_of_exceeds hexceeds]
    exact ⟨[], rfl⟩

/-! ## BITS2B -/

/-- BITS2B of a written A commits its operation's outcome (R66). -/
theorem exec_bits2b_of_written {s : State} {a : List Byte} (ha : s.a = some a) :
    exec .bits2b s = .next (commit s (opBits2b a)) := by
  simp [exec, execBits2b, ha]

/-- The verdict on the lanes of a bit vector (R84). -/
theorem hasBadBit_iff (a : List Byte) : hasBadBit a = true ↔ ∃ b ∈ a, 1 < b.toNat := by
  simp [hasBadBit]

/-- A length that is no multiple of 8 is a LengthError (R83). -/
theorem opBits2b_of_length {a : List Byte} (h : a.length % 8 ≠ 0) : opBits2b a = .lengthError := by
  simp [opBits2b, h]

/-- A lane above 1 is a RangeError (R84). -/
theorem opBits2b_of_badBit {a : List Byte} (h : a.length % 8 = 0) (hbad : ∃ b ∈ a, 1 < b.toNat) :
    opBits2b a = .rangeError (sweepLanes .a 0 a).trace := by
  simp [opBits2b, h, (hasBadBit_iff a).mpr hbad]

/-- A bit vector of a multiple of 8 lanes is packed (R83). -/
theorem opBits2b_of_bits {a : List Byte} (h : a.length % 8 = 0) (hbits : ∀ b ∈ a, b.toNat ≤ 1) :
    opBits2b a = .ok (.lanes (packBits a)) (sweepLanes .a 0 a).trace := by
  have hgood : ¬ hasBadBit a = true := by
    rw [hasBadBit_iff]
    rintro ⟨b, hb, hlt⟩
    exact absurd hlt (Nat.not_lt.mpr (hbits b hb))
  simp [opBits2b, h, hgood]

/-- The packed byte is the sum of its bits' weights: it never overflows (R83). -/
theorem bitsToByte_toNat (b0 b1 b2 b3 b4 b5 b6 b7 : Byte) :
    (bitsToByte b0 b1 b2 b3 b4 b5 b6 b7).toNat =
      b0.toNat % 2 * 2 ^ 7 + b1.toNat % 2 * 2 ^ 6 + b2.toNat % 2 * 2 ^ 5 + b3.toNat % 2 * 2 ^ 4
        + b4.toNat % 2 * 2 ^ 3 + b5.toNat % 2 * 2 ^ 2 + b6.toNat % 2 * 2 ^ 1 + b7.toNat % 2 * 2 ^ 0 := by
  rw [bitsToByte, BitVec.toNat_ofNat]
  omega

/-- Packing stops where fewer than eight lanes are left (R83). -/
theorem length_lt_eight_of_ne_cons {a : List Byte}
    (h : ∀ b0 b1 b2 b3 b4 b5 b6 b7 rest, a ≠ b0 :: b1 :: b2 :: b3 :: b4 :: b5 :: b6 :: b7 :: rest) :
    a.length < 8 := by
  match a with
  | [] | [_] | [_, _] | [_, _, _] | [_, _, _, _] | [_, _, _, _, _] | [_, _, _, _, _, _] | [_, _, _, _, _, _, _] => simp
  | b0 :: b1 :: b2 :: b3 :: b4 :: b5 :: b6 :: b7 :: rest => exact absurd rfl (h b0 b1 b2 b3 b4 b5 b6 b7 rest)

/-- Packing gives a byte for every eight lanes (R83). -/
theorem packBits_length (a : List Byte) : (packBits a).length = a.length / 8 := by
  fun_induction packBits a with
  | case1 b0 b1 b2 b3 b4 b5 b6 b7 rest ih =>
    simp only [List.length_cons, ih]
    omega
  | case2 a h =>
    have := length_lt_eight_of_ne_cons h
    simp
    omega

/-- Byte `q` of the packing is the sum of the weights of lanes `8q` to `8q + 7`, taken modulo 2 (R83). -/
theorem laneValue_packBits {a : List Byte} {q : Nat} (hq : q < a.length / 8) :
    laneValue (packBits a) q = ((List.range 8).map fun m => laneValue a (8 * q + m) % 2 * 2 ^ (7 - m)).sum := by
  fun_induction packBits a generalizing q with
  | case1 b0 b1 b2 b3 b4 b5 b6 b7 rest ih =>
    cases q with
    | zero => simp [bitsToByte_toNat, List.range_succ, Nat.add_assoc]
    | succ q =>
      have hindex : ∀ m, 8 * (q + 1) + m = 8 * q + m + 8 := by omega
      simp only [hindex, laneValue_cons_succ]
      exact ih (by simp at hq; omega)
  | case2 a h =>
    have := length_lt_eight_of_ne_cons h
    omega

/-- Settles O19: in a bit vector the reduction of each lane modulo 2 changes nothing. -/
theorem bits2bPacksMsbFirst : Obligations.Bits2bPacksMsbFirst := by
  refine ⟨by decide, fun s a ha => ⟨fun hlen => ?_, fun hlen hbad => ?_, fun hlen hbits => ?_⟩⟩ <;>
    rw [exec_bits2b_of_written ha]
  · rw [opBits2b_of_length hlen]
    exact ⟨[], rfl⟩
  · rw [opBits2b_of_badBit hlen hbad]
    exact ⟨_, rfl⟩
  · have hmod : ∀ i, laneValue a i % 2 = laneValue a i := fun i =>
      Nat.mod_eq_of_lt (Nat.lt_succ_of_le (laneValue_le_one hbits i))
    rw [opBits2b_of_bits hlen hbits]
    refine ⟨_, _, rfl, packBits_length a, fun q hq => ?_⟩
    simp only [laneValue_packBits hq, hmod]

/-! ## PARSELE -/

/-- PARSELE of a written A commits its operation's outcome (R66). -/
theorem exec_parsele_of_written {s : State} {a : List Byte} (ha : s.a = some a) :
    exec .parsele s = .next (commit s (opParsele a)) := by
  simp [exec, execParsele, ha]

/-- Eight lanes are parsed (R88). -/
theorem opParsele_of_length {a : List Byte} (h : a.length = 8) :
    opParsele a = .ok (.u64 (BitVec.ofNat 64 (littleEndian a))) (sweepLanes .a 0 a).trace := by
  simp [opParsele, h]

/-- Any other number of lanes is a LengthError (R88). -/
theorem opParsele_of_length_ne {a : List Byte} (h : a.length ≠ 8) : opParsele a = .lengthError := by
  simp [opParsele, h]

/-- The little-endian number of eight lanes fits in 64 bits (R88). -/
theorem toNat_ofNat_littleEndian {a : List Byte} (h : a.length = 8) :
    (BitVec.ofNat 64 (littleEndian a)).toNat = littleEndian a := by
  have hlt := littleEndian_lt a
  rw [h] at hlt
  rw [BitVec.toNat_ofNat, Nat.mod_eq_of_lt hlt]

/-- Settles O21: the byte-order sum of R12 on eight lanes. -/
theorem parseleReadsLittleEndian : Obligations.ParseleReadsLittleEndian := by
  refine ⟨by decide, fun s a ha => ⟨fun hlen => ?_, fun hlen => ?_⟩⟩ <;> rw [exec_parsele_of_written ha]
  · rw [opParsele_of_length hlen]
    refine ⟨_, _, rfl, ?_⟩
    rw [toNat_ofNat_littleEndian hlen, littleEndian_eq_sum, hlen]
  · rw [opParsele_of_length_ne hlen]
    exact ⟨[], rfl⟩

/-! ## REVB -/

/-- REVB of a written A commits the reversed lanes (R66, R90). -/
theorem exec_revb_of_written {s : State} {a : List Byte} (ha : s.a = some a) :
    exec .revb s = .next (commit s (.ok (.lanes a.reverse) (sweepLanes .a 0 a).trace)) := by
  simp [exec, execRevb, opRevb, ha]

/-- Lane `i` of a reversed buffer is the lane at the same distance from the other end (R90). -/
theorem laneValue_reverse {a : List Byte} {i : Nat} (hi : i < a.length) :
    laneValue a.reverse i = laneValue a (a.length - 1 - i) := by
  rw [laneValue, List.getD_reverse i hi, laneValue]

/-- Settles O22. -/
theorem revbReversesLanes : Obligations.RevbReversesLanes := by
  refine ⟨by decide, fun s a ha => ?_⟩
  rw [exec_revb_of_written ha]
  exact ⟨_, _, rfl, List.length_reverse, fun _ => laneValue_reverse⟩

end Sys2Proof.Proofs

namespace Sys2Proof.Proofs

open Sys2Proof.Machine Sys2Proof.Laws

/-! SUPPORT. The family of the selector: SELA (R100, R101), SELS (R105) and their RangeError (R103). -/

/-! ## SELA -/

/-- SELA of a written TB and IDX commits its operation's outcome (R66). -/
theorem exec_sela_of_written {s : State} {t : List (List Byte)} {k : BitVec 32} (ht : s.tb = some t)
    (hk : s.idx = some k) : exec .sela s = .next (commit s (opSela t k)) := by
  simp [exec, execSela, ht, hk]

/-- SELA's loop over a whole table has no hit exactly when the index is outside it (R103). -/
theorem selectEntries_hits_eq_zero_iff (k : Nat) (t : List (List Byte)) (acc : List Byte) :
    (selectEntries k 0 t acc 0).2 = 0 ↔ t.length ≤ k := by
  simp [selectEntries_hits]

/-- When the entries have one length it is the `M` of R100. -/
theorem length_eq_entryLength {t : List (List Byte)} (hlen : ∀ d ∈ t, ∀ e ∈ t, d.length = e.length) {e : List Byte}
    (he : e ∈ t) : e.length = entryLength t := by
  cases t with
  | nil => simp at he
  | cons d ds => exact hlen e he d (by simp)

/-- Two entries of different length are a LengthError (R101). -/
theorem opSela_of_ragged {t : List (List Byte)} (k : BitVec 32) (h : ∃ d ∈ t, ∃ e ∈ t, d.length ≠ e.length) :
    opSela t k = .lengthError := by
  have hragged : isRagged t = true := by
    rw [← Bool.not_eq_false, isRagged_eq_false_iff]
    push Not
    exact h
  simp [opSela, hragged]

/-- Within a table of one entry length the entry at the index is selected (R100). -/
theorem opSela_of_entry {t : List (List Byte)} {k : BitVec 32} {e : List Byte}
    (hlen : ∀ d ∈ t, ∀ e ∈ t, d.length = e.length) (he : t[k.toNat]? = some e) :
    opSela t k = .ok (.lanes e) (.idx :: (sweepTable 0 t).trace) := by
  have hlt : k.toNat < t.length := (List.getElem?_eq_some_iff.mp he).1
  have hsum := selectEntries_hit k.toNat 0 (entryLength t) t 0 (fun _ => length_eq_entryLength hlen) e he
  rw [Nat.zero_add] at hsum
  simp [opSela, (isRagged_eq_false_iff t).mpr hlen, selectEntries_hits_eq_zero_iff, hlt, hsum]

/-- Outside a table of one entry length the index is a RangeError (R103). -/
theorem opSela_of_outside {t : List (List Byte)} {k : BitVec 32} (hlen : ∀ d ∈ t, ∀ e ∈ t, d.length = e.length)
    (hk : t.length ≤ k.toNat) : opSela t k = .rangeError (.idx :: (sweepTable 0 t).trace) := by
  simp [opSela, (isRagged_eq_false_iff t).mpr hlen, selectEntries_hits_eq_zero_iff, hk]

/-- Settles O26: the weighted sum over the table is the entry of the one hit. -/
theorem selaSelectsEntry : Obligations.SelaSelectsEntry := by
  refine ⟨by decide, fun s t k ht hk => ?_⟩
  rw [exec_sela_of_written ht hk]
  refine ⟨fun hragged => ?_, fun hlen => ⟨fun e he => ?_, fun hout => ?_⟩⟩
  · rw [opSela_of_ragged k hragged]
    exact ⟨[], rfl⟩
  · rw [opSela_of_entry hlen he]
    exact ⟨_, rfl⟩
  · rw [opSela_of_outside hlen hout]
    exact ⟨_, rfl⟩

/-! ## SELS -/

/-- SELS of a written TS and IDX commits its operation's outcome (R66). -/
theorem exec_sels_of_written {s : State} {t : List Nat} {k : BitVec 32} (ht : s.ts = some t) (hk : s.idx = some k) :
    exec .sels s = .next (commit s (opSels s.params.scalarW t k)) := by
  simp [exec, execSels, ht, hk]

/-- SELS's loop over a whole table has no hit exactly when the index is outside it (R103). -/
theorem selectScalars_hits_eq_zero_iff (w k : Nat) (t : List Nat) (acc : Nat) :
    (selectScalars w k 0 t acc 0).2 = 0 ↔ t.length ≤ k := by
  simp [selectScalars_hits]

/-- Within the table the scalar at the index is selected, modulo `2^SCALAR_W` (R105). -/
theorem opSels_of_scalar (w : Nat) {t : List Nat} {k : BitVec 32} {x : Nat} (hx : t[k.toNat]? = some x) :
    opSels w t k = .ok (.scalar (x % 2 ^ w)) (.idx :: (sweepLanes .ts 0 t).trace) := by
  have hlt : k.toNat < t.length := (List.getElem?_eq_some_iff.mp hx).1
  have hsum := selectScalars_hit w k.toNat 0 t 0 x hx
  rw [Nat.zero_add] at hsum
  simp [opSels, selectScalars_hits_eq_zero_iff, hlt, hsum]

/-- Outside the table the index is a RangeError (R103, R105). -/
theorem opSels_of_outside (w : Nat) {t : List Nat} {k : BitVec 32} (hk : t.length ≤ k.toNat) :
    opSels w t k = .rangeError (.idx :: (sweepLanes .ts 0 t).trace) := by
  simp [opSels, selectScalars_hits_eq_zero_iff, hk]

/-- Settles O27: the weighted sum modulo `2^SCALAR_W` is the reduced scalar of the one hit. -/
theorem selsSelectsScalar : Obligations.SelsSelectsScalar := by
  refine ⟨by decide, fun s t k ht hk => ?_⟩
  rw [exec_sels_of_written ht hk]
  refine ⟨fun x hx => ?_, fun hout => ?_⟩
  · rw [opSels_of_scalar _ hx]
    exact ⟨_, _, rfl, rfl, Nat.mod_eq_of_lt⟩
  · rw [opSels_of_outside _ hout]
    exact ⟨_, rfl⟩

/-! ## The index outside the table -/

/-- A selection that ends OK inside a table of `n` entries and is a RangeError outside it commits CODE 3 exactly outside, and keeps
RESULT there (R103, R153). -/
theorem commit_selection {r : OpRun} {n k : Nat} (hin : k < n → ∃ v tr, r = .ok v tr)
    (hout : n ≤ k → ∃ tr, r = .rangeError tr) (s : State) :
    ((commit s r).statusCode = 3#3 ↔ n ≤ k) ∧ (n ≤ k → (commit s r).result = s.result) := by
  rcases Nat.lt_or_ge k n with hlt | hge
  · obtain ⟨v, tr, rfl⟩ := hin hlt
    simp [codeOk, hlt]
  · obtain ⟨tr, rfl⟩ := hout hge
    simp [hge]

/-- Settles O28: both selections end OK inside the table and are a RangeError outside it. -/
theorem indexOutsideTableIsRangeError : Obligations.IndexOutsideTableIsRangeError := by
  refine ⟨fun s t k ht hk hlen => ⟨_, exec_sela_of_written ht hk, commit_selection (fun hin => ?_) (fun hout => ?_) s⟩,
    fun s t k ht hk => ⟨_, exec_sels_of_written ht hk, commit_selection (fun hin => ?_) (fun hout => ?_) s⟩⟩
  · exact ⟨_, _, opSela_of_entry hlen (List.getElem?_eq_getElem hin)⟩
  · exact ⟨_, opSela_of_outside hlen hout⟩
  · exact ⟨_, _, opSels_of_scalar _ (List.getElem?_eq_getElem hin)⟩
  · exact ⟨_, opSels_of_outside _ hout⟩

end Sys2Proof.Proofs

namespace Sys2Proof.Proofs

open Sys2Proof.Machine Sys2Proof.Laws

/-! SUPPORT. The family of the block exclusive or: XOR (R120, R121). -/

/-- XOR of a written A and B commits its operation's outcome (R66). -/
theorem exec_xor_of_written {s : State} {a b : List Byte} (ha : s.a = some a) (hb : s.b = some b) :
    exec .xor s = .next (commit s (opXor a b)) := by
  simp [exec, execXor, ha, hb]

/-- Two blocks are combined lane by lane (R120). -/
theorem opXor_of_length {a b : List Byte} (ha : a.length = 16) (hb : b.length = 16) :
    opXor a b = .ok (.lanes (List.zipWith (· ^^^ ·) a b)) ((sweepLanes .a 0 a).trace ++ (sweepLanes .b 0 b).trace) := by
  simp [opXor, ha, hb]

/-- An operand of any other length is a LengthError (R121). -/
theorem opXor_of_length_ne {a b : List Byte} (h : a.length ≠ 16 ∨ b.length ≠ 16) : opXor a b = .lengthError :=
  if_pos h

/-- Lane `j` of two buffers combined lane by lane is the combination of their lanes `j`. -/
theorem getD_zipWith (f : Byte → Byte → Byte) {a b : List Byte} {j : Nat} (ha : j < a.length) (hb : j < b.length) :
    (List.zipWith f a b).getD j 0#8 = f (a.getD j 0#8) (b.getD j 0#8) := by
  have hj : j < (List.zipWith f a b).length := by
    rw [List.length_zipWith]
    exact lt_min ha hb
  rw [List.getD_eq_getElem _ _ hj, List.getD_eq_getElem _ _ ha, List.getD_eq_getElem _ _ hb, List.getElem_zipWith]

/-- Settles O30. -/
theorem xorCombinesBlocks : Obligations.XorCombinesBlocks := by
  refine ⟨by decide, fun s a b ha hb => ⟨fun hla hlb => ?_, fun hlen => ?_⟩⟩ <;> rw [exec_xor_of_written ha hb]
  · rw [opXor_of_length hla hlb]
    refine ⟨_, _, rfl, by simp [hla, hlb], fun j hj => ?_⟩
    exact getD_zipWith _ (hla.symm ▸ hj) (hlb.symm ▸ hj)
  · rw [opXor_of_length_ne hlen]
    exact ⟨[], rfl⟩

end Sys2Proof.Proofs

namespace Sys2Proof.Proofs

open Sys2Proof.Machine Sys2Proof.Laws

/-! SUPPORT. The family of the multiplexer: MUX (R130 to R132). -/

/-- MUX of a written A, B and SEL commits its operation's outcome (R66). -/
theorem exec_mux_of_written {s : State} {a b : List Byte} {sel : BitVec 8} (ha : s.a = some a) (hb : s.b = some b)
    (hsel : s.sel = some sel) : exec .mux s = .next (commit s (opMux a b sel)) := by
  simp [exec, execMux, ha, hb, hsel]

/-- An operand that is no block is a LengthError, whatever the selector (R132). -/
theorem opMux_of_length_ne {a b : List Byte} (sel : BitVec 8) (h : a.length ≠ 16 ∨ b.length ≠ 16) :
    opMux a b sel = .lengthError :=
  if_pos h

/-- A selector above 1 is a RangeError on two blocks, after all their lanes were read (R131, R134). -/
theorem opMux_of_sel_gt {a b : List Byte} {sel : BitVec 8} (ha : a.length = 16) (hb : b.length = 16)
    (hsel : 1 < sel.toNat) :
    opMux a b sel = .rangeError (.sel :: ((sweepLanes .a 0 a).trace ++ (sweepLanes .b 0 b).trace)) := by
  simp [opMux, ha, hb, hsel]

/-- Two blocks are combined lane by lane under a selector of 0 or 1 (R130). -/
theorem opMux_of_sel_le {a b : List Byte} {sel : BitVec 8} (ha : a.length = 16) (hb : b.length = 16)
    (hsel : sel.toNat ≤ 1) :
    opMux a b sel = .ok (.lanes (List.zipWith (muxLane sel) a b))
      (.sel :: ((sweepLanes .a 0 a).trace ++ (sweepLanes .b 0 b).trace)) := by
  simp [opMux, ha, hb, Nat.not_lt.mpr hsel]

/-- The lane formula in numbers: the product is taken modulo `2^8`, the exclusive or is not reduced (R130). -/
theorem muxLane_toNat (sel x y : Byte) :
    (muxLane sel x y).toNat = x.toNat ^^^ (sel.toNat * (x.toNat ^^^ y.toNat)) % 2 ^ 8 := by
  rw [muxLane, BitVec.toNat_xor, BitVec.toNat_mul, BitVec.toNat_xor]

/-- Lane `j` of two buffers combined by MUX is the lane formula on their lanes `j` (R130). -/
theorem laneValue_zipWith_muxLane (sel : BitVec 8) {a b : List Byte} {j : Nat} (ha : j < a.length)
    (hb : j < b.length) :
    laneValue (List.zipWith (muxLane sel) a b) j =
      laneValue a j ^^^ (sel.toNat * (laneValue a j ^^^ laneValue b j)) % 2 ^ 8 := by
  rw [laneValue, getD_zipWith _ ha hb, muxLane_toNat, laneValue, laneValue]

/-- Settles O32: the lengths, then the selector, decide between the two errors and the lane formula. -/
theorem muxCombinesByXorFormula : Obligations.MuxCombinesByXorFormula := by
  refine ⟨by decide, fun s a b sel ha hb hsel => ⟨fun hlen => ?_, fun hla hlb hgt => ?_, fun hla hlb hle => ?_⟩⟩ <;>
    rw [exec_mux_of_written ha hb hsel]
  · rw [opMux_of_length_ne sel hlen]
    exact ⟨[], rfl⟩
  · rw [opMux_of_sel_gt hla hlb hgt]
    exact ⟨_, rfl⟩
  · rw [opMux_of_sel_le hla hlb hle]
    refine ⟨_, _, rfl, by simp [hla, hlb], fun j hj => ?_⟩
    exact laneValue_zipWith_muxLane sel (hla.symm ▸ hj) (hlb.symm ▸ hj)

end Sys2Proof.Proofs

namespace Sys2Proof.Proofs

open Sys2Proof.Machine Sys2Proof.Laws

/-! SUPPORT. The family of the counter: INCW (R140). -/

/-- INCW of a written A commits its operation's outcome (R66). -/
theorem exec_incw_of_written {s : State} {a : List Byte} (ha : s.a = some a) :
    exec .incw s = .next (commit s (opIncw a)) := by
  simp [exec, execIncw, ha]

/-- A counter block is advanced to the next one (R140). -/
theorem opIncw_of_length {a : List Byte} (h : a.length = 16) :
    opIncw a = .ok (.lanes (nextCounterBlock a)) (sweepLanes .a 0 a).trace := by
  simp [opIncw, h]

/-- Any other number of lanes is a LengthError (R140). -/
theorem opIncw_of_length_ne {a : List Byte} (h : a.length ≠ 16) : opIncw a = .lengthError :=
  if_pos h

/-- The nonce part of a counter block has 12 lanes (R140). -/
theorem length_take_ctrFirst {a : List Byte} (h : a.length = 16) : (a.take Config.ctrFirst).length = 12 := by
  simp [h]

/-- The next counter block is a block (R140). -/
theorem nextCounterBlock_length {a : List Byte} (h : a.length = 16) : (nextCounterBlock a).length = 16 := by
  rw [nextCounterBlock, List.length_append, length_take_ctrFirst h]
  rfl

/-- The next counter block keeps the first 12 lanes (R140). -/
theorem take_nextCounterBlock {a : List Byte} (h : a.length = 16) : (nextCounterBlock a).take 12 = a.take 12 :=
  List.take_left' (length_take_ctrFirst h)

/-- The counter of the next counter block is one more, modulo `2^32`: both counters are the big-endian readings of the blocks'
last four lanes (R140). -/
theorem counterValue_nextCounterBlock {a : List Byte} (h : a.length = 16) :
    counterValue (nextCounterBlock a) = (counterValue a + 1) % 2 ^ 32 := by
  rw [counterValue_eq_bigEndian _ (nextCounterBlock_length h), counterValue_eq_bigEndian a h, nextCounterBlock,
    List.drop_left' (length_take_ctrFirst h), bigEndian_wordBytes, BitVec.toNat_ofNat, Nat.mod_mod]

/-- Settles O34. -/
theorem incwIncrementsCounterWord : Obligations.IncwIncrementsCounterWord := by
  refine ⟨by decide, fun s a ha => ⟨fun hlen => ?_, fun hlen => ?_⟩⟩ <;> rw [exec_incw_of_written ha]
  · rw [opIncw_of_length hlen]
    exact ⟨_, _, rfl, nextCounterBlock_length hlen, take_nextCounterBlock hlen, counterValue_nextCounterBlock hlen⟩
  · rw [opIncw_of_length_ne hlen]
    exact ⟨[], rfl⟩

end Sys2Proof.Proofs

namespace Sys2Proof.Proofs

open Sys2Proof.Machine Sys2Proof.Laws

/-! SUPPORT. The family of the errors: what a command that records no fault does to RESULT (R153). -/

/-- A commit replaces RESULT, STATUS.CODE and the trace, and no other field (R66, R153). -/
theorem commit_frame (s : State) (r : OpRun) :
    commit s r = { s with
      result := (commit s r).result, statusCode := (commit s r).statusCode, trace := (commit s r).trace } := by
  cases r <;> rfl

/-- A commit of an error keeps RESULT whole (R153). -/
theorem commit_result_of_code_ne {s : State} {r : OpRun} (h : (commit s r).statusCode ≠ codeOk) :
    (commit s r).result = s.result := by
  cases r with
  | ok v tr => exact absurd (commit_ok_code s v tr) h
  | lengthError => exact commit_length_result s
  | rangeError tr => exact commit_range_result s tr

/-- A commit of a success writes its value, which is of some kind (R30, R153). -/
theorem commit_result_ne_none {s : State} {r : OpRun} (hr : ∀ tr, r ≠ .ok .none tr)
    (h : (commit s r).statusCode = codeOk) : (commit s r).result ≠ .none := by
  cases r with
  | ok v tr => exact fun hv => hr tr (congrArg (OpRun.ok · tr) hv)
  | lengthError => exact absurd h (by decide : codeLengthError ≠ codeOk)
  | rangeError tr => exact absurd h (by decide : codeRangeError ≠ codeOk)

/-- A command that records no fault is the illegal command or the commit of an outcome (R66, R158). -/
theorem execute_next_of_faults_eq {w : CommandWord} {s t : State} (h : execute w s = .next t)
    (hf : t.faults = s.faults) : t = illegalCommand s ∨ ∃ r, t = commit s r ∧ ∀ tr, r ≠ .ok .none tr := by
  rcases execute_next h with ⟨-, hill⟩ | ⟨i, -, hcommit | ⟨x, rfl⟩⟩
  · exact .inl hill
  · exact .inr hcommit
  · exact absurd hf (operandFault_faults_ne i x s)

/-- Settles O13: RESULT is written by the commit of a success alone. -/
theorem failedCommandKeepsResult : Obligations.FailedCommandKeepsResult := by
  intro s w rest t hpending hstep hf
  rw [step_of_pending hpending] at hstep
  have hcode := execute_statusCode_bounds hstep hf
  rcases execute_next_of_faults_eq hstep hf with rfl | ⟨r, rfl, hr⟩
  · exact ⟨rfl, by bv_omega, fun _ => rfl, fun h => absurd h (by decide : codeIllegal ≠ codeOk)⟩
  · exact ⟨commit_frame _ r, by bv_omega, commit_result_of_code_ne, commit_result_ne_none hr⟩

end Sys2Proof.Proofs

namespace Sys2Proof.Proofs

open Sys2Proof.Machine Sys2Proof.Laws

/-! SUPPORT. The family of reset: the reset event as a step of the machine (R180). -/

/-- The step of a reset action is the reset event on the state with that action taken off the script (R180). -/
theorem step_of_pending_reset {s : State} {rest : List HostAction} (h : s.pending = .reset :: rest) :
    step s = .next (resetEvent { s with pending := rest }) :=
  step_of_pending h

/-- The reset event field by field: the registers of R37, the empty trace, and what is no register kept (R180). -/
theorem resetEvent_eq (s : State) :
    resetEvent s =
      { params := s.params, a := none, b := none, tb := none, ts := none, idx := none, sel := none,
        statusCode := codeIdle, result := .none, trace := [], pending := s.pending, faults := s.faults,
        observed := s.observed } :=
  rfl

/-- Settles O2: the reset event leaves the empty trace. -/
theorem resetEventRestoresRegisters : Obligations.ResetEventRestoresRegisters := by
  intro s rest hpending
  refine ⟨[], ?_⟩
  rw [step_of_pending_reset hpending, resetEvent_eq]

end Sys2Proof.Proofs

namespace Sys2Proof.Proofs

open Sys2Proof.Machine Sys2Proof.Laws

/-! SUPPORT. The decoder against the encoder: which words are legal, and of which operation (R60 to R63, R68). -/

/-- A word is its reserved field over its operation field (R60). -/
theorem rsvField_append_opField (w : CommandWord) : rsvField w ++ opField w = w :=
  BitVec.extractLsb'_append_extractLsb'_eq_extractLsb' (by decide) |>.trans BitVec.extractLsb'_eq_self

/-- The reserved field of an operation's word is 0 (R62). -/
@[simp] theorem rsvField_encode (i : Instr) : rsvField (encode i) = 0#28 :=
  BitVec.extractLsb'_append_eq_left

/-- The operation field of an operation's word is its code (R61). -/
@[simp] theorem opField_encode (i : Instr) : opField (encode i) = codeOf i :=
  BitVec.extractLsb'_append_eq_right

/-- A word decodes to an operation exactly when it is that operation's word (R60 to R62). -/
theorem decode_eq_operation_iff_eq_encode (w : CommandWord) (i : Instr) : decode w = .operation i ↔ w = encode i := by
  rw [decode_eq_operation_iff]
  constructor
  · rintro ⟨hrsv, hop⟩
    rw [← rsvField_append_opField w, hrsv, hop, encode]
  · rintro rfl
    exact ⟨rsvField_encode i, opField_encode i⟩

/-- A word is ill formed exactly when RSV is not 0 or OP is a reserved code (R61 to R63). -/
theorem wellFormedWord_eq_false_iff (w : CommandWord) :
    wellFormedWord w = false ↔ rsvField w ≠ 0#28 ∨ (opField w).toNat = 0 ∨ 11 ≤ (opField w).toNat := by
  change (rsvField w == 0#28 && (decide (1 ≤ (opField w).toNat) && decide ((opField w).toNat ≤ 10))) = false ↔ _
  simp only [Bool.and_eq_false_iff, beq_eq_false_iff_ne, decide_eq_false_iff_not]
  refine or_congr Iff.rfl ?_
  omega

/-- Settles O8: a word decodes to an operation exactly when it is its encoding. -/
theorem encodeDecodeAgree : Obligations.EncodeDecodeAgree := by
  refine ⟨fun i _ => ?_, fun w i h => ?_, fun w => ?_⟩
  · exact (decode_eq_operation_iff_eq_encode _ i).mpr rfl
  · exact ((decode_eq_operation_iff_eq_encode w i).mp h).symm
  · rw [decode_eq_illegal_iff, wellFormedWord_eq_false_iff]

/-- A word decodes to some operation exactly when it does not decode to the illegal verdict (R68). -/
theorem exists_decode_eq_operation_iff (w : CommandWord) : (∃ i, decode w = .operation i) ↔ decode w ≠ .illegal := by
  cases decode w <;> simp

/-- Settles O7: RSV is the word divided by 16, OP its remainder. -/
theorem legalWordsAreOneToTen : Obligations.LegalWordsAreOneToTen := by
  intro w
  have hrsv : rsvField w = 0#28 ↔ w.toNat / 16 = 0 := by
    rw [← BitVec.toNat_inj, rsvField, BitVec.extractLsb'_toNat, Nat.shiftRight_eq_div_pow]
    have := w.isLt
    simp
    omega
  have hop : (opField w).toNat = w.toNat % 16 := by
    rw [opField, BitVec.extractLsb'_toNat, Nat.shiftRight_zero]
  rw [exists_decode_eq_operation_iff, ne_eq, decode_eq_illegal_iff, ne_eq, hrsv, hop]
  omega

/-- Settles O9. -/
theorem writtenOutWordsDecode : Obligations.WrittenOutWordsDecode := by
  unfold Obligations.WrittenOutWordsDecode
  decide

/-- Execute of an operation's word is that operation (R66). -/
theorem execute_of_operation {w : CommandWord} {i : Instr} (h : decode w = .operation i) (s : State) :
    execute w s = exec i s := by
  simp [execute, h]

/-- Settles O4. -/
theorem stepRunsDecodedCommand : Obligations.StepRunsDecodedCommand := by
  intro s w rest i hpending hdecode
  rw [step_of_pending hpending]
  exact execute_of_operation hdecode _

end Sys2Proof.Proofs

namespace Sys2Proof.Proofs

open Sys2Proof.Machine Sys2Proof.Laws

/-! SUPPORT. What a command runs: the outcome of its operation on the contents of the registers it reads (R66, R67), and
what it leaves. -/

/-- `r` is the outcome of operation `i` on the written registers of `s` that it reads (R61, R67). -/
inductive Runs (s : State) : Instr → OpRun → Prop
  | b2bits {a} (ha : s.a = some a) : Runs s .b2bits (opB2bits s.params.maxLanes a)
  | bits2b {a} (ha : s.a = some a) : Runs s .bits2b (opBits2b a)
  | parsebe {a} (ha : s.a = some a) : Runs s .parsebe (opParsebe a)
  | parsele {a} (ha : s.a = some a) : Runs s .parsele (opParsele a)
  | revb {a} (ha : s.a = some a) : Runs s .revb (opRevb a)
  | sela {t k} (ht : s.tb = some t) (hk : s.idx = some k) : Runs s .sela (opSela t k)
  | sels {t k} (ht : s.ts = some t) (hk : s.idx = some k) : Runs s .sels (opSels s.params.scalarW t k)
  | xor {a b} (ha : s.a = some a) (hb : s.b = some b) : Runs s .xor (opXor a b)
  | mux {a b sel} (ha : s.a = some a) (hb : s.b = some b) (hsel : s.sel = some sel) : Runs s .mux (opMux a b sel)
  | incw {a} (ha : s.a = some a) : Runs s .incw (opIncw a)

/-- PARSEBE of a written A commits its operation's outcome (R66). -/
theorem exec_parsebe_of_written {s : State} {a : List Byte} (ha : s.a = some a) :
    exec .parsebe s = .next (commit s (opParsebe a)) := by
  simp [exec, execParsebe, ha]

/-- REVB's outcome is the reversed buffer (R90). -/
theorem opRevb_eq (a : List Byte) : opRevb a = .ok (.lanes a.reverse) (sweepLanes .a 0 a).trace := by
  simp [opRevb]

/-- A command commits the outcome that its operation runs to (R66). -/
theorem Runs.exec_eq {s : State} {i : Instr} {r : OpRun} (h : Runs s i r) : exec i s = .next (commit s r) := by
  cases h with
  | b2bits ha => exact exec_b2bits_of_written ha
  | bits2b ha => exact exec_bits2b_of_written ha
  | parsebe ha => exact exec_parsebe_of_written ha
  | parsele ha => exact exec_parsele_of_written ha
  | revb ha => exact (exec_revb_of_written ha).trans (by rw [opRevb_eq])
  | sela ht hk => exact exec_sela_of_written ht hk
  | sels ht hk => exact exec_sels_of_written ht hk
  | xor ha hb => exact exec_xor_of_written ha hb
  | mux ha hb hsel => exact exec_mux_of_written ha hb hsel
  | incw ha => exact exec_incw_of_written ha

/-- A register is written exactly when the field behind it is (R35). -/
theorem isWritten_iff (s : State) (x : OperandReg) :
    isWritten s x = true ↔
      match x with
      | .A => ∃ v, s.a = some v
      | .B => ∃ v, s.b = some v
      | .TB => ∃ v, s.tb = some v
      | .TS => ∃ v, s.ts = some v
      | .IDX => ∃ v, s.idx = some v
      | .SEL => ∃ v, s.sel = some v := by
  cases x <;> simp [isWritten, readOperand, Option.isSome_iff_exists]

/-- With every register of `Reads(op)` written the operation runs to an outcome (R66, R188). -/
theorem exists_runs {s : State} {i : Instr} (h : firstUnwritten s i = none) : ∃ r, Runs s i r := by
  have hw : ∀ x ∈ reads i, isWritten s x = true := by simpa [firstUnwritten] using h
  cases i <;> simp only [reads, List.forall_mem_cons, isWritten_iff] at hw
  case b2bits => obtain ⟨⟨a, ha⟩, -⟩ := hw; exact ⟨_, .b2bits ha⟩
  case bits2b => obtain ⟨⟨a, ha⟩, -⟩ := hw; exact ⟨_, .bits2b ha⟩
  case parsebe => obtain ⟨⟨a, ha⟩, -⟩ := hw; exact ⟨_, .parsebe ha⟩
  case parsele => obtain ⟨⟨a, ha⟩, -⟩ := hw; exact ⟨_, .parsele ha⟩
  case revb => obtain ⟨⟨a, ha⟩, -⟩ := hw; exact ⟨_, .revb ha⟩
  case sela => obtain ⟨⟨t, ht⟩, ⟨k, hk⟩, -⟩ := hw; exact ⟨_, .sela ht hk⟩
  case sels => obtain ⟨⟨t, ht⟩, ⟨k, hk⟩, -⟩ := hw; exact ⟨_, .sels ht hk⟩
  case xor => obtain ⟨⟨a, ha⟩, ⟨b, hb⟩, -⟩ := hw; exact ⟨_, .xor ha hb⟩
  case mux => obtain ⟨⟨a, ha⟩, ⟨b, hb⟩, ⟨sel, hsel⟩, -⟩ := hw; exact ⟨_, .mux ha hb hsel⟩
  case incw => obtain ⟨⟨a, ha⟩, -⟩ := hw; exact ⟨_, .incw ha⟩

/-- The next state of a command: the commit of what its operation runs to, or the fault of the first unwritten register
recorded (R66, R158). -/
theorem exec_next_runs {i : Instr} {s t : State} (h : exec i s = .next t) :
    (∃ r, Runs s i r ∧ t = commit s r) ∨ ∃ x, firstUnwritten s i = some x ∧ t = operandFault i x s := by
  rcases exec_next h with ⟨hnone, -⟩ | hfault
  · obtain ⟨r, hr⟩ := exists_runs hnone
    rw [hr.exec_eq] at h
    exact .inl ⟨r, hr, by cases h; rfl⟩
  · exact .inr hfault

/-- A command that records no fault commits what its operation runs to (R66, R158). -/
theorem exec_next_runs_of_faults_eq {i : Instr} {s t : State} (h : exec i s = .next t) (hf : t.faults = s.faults) :
    ∃ r, Runs s i r ∧ t = commit s r := by
  rcases exec_next_runs h with hrun | ⟨x, -, rfl⟩
  · exact hrun
  · exact absurd hf (operandFault_faults_ne i x s)

/-! ## The operand check -/

/-- The operand check's register is the first of `Reads(op)` that holds nothing (R66, R158). -/
theorem firstUnwritten_eq_find (s : State) (i : Instr) :
    firstUnwritten s i = (reads i).find? fun y => (readOperand s y).isNone := by
  simp [firstUnwritten, isWritten]

/-- A command records the fault of its first unwritten register (R66, R158). -/
theorem exec_of_firstUnwritten {s : State} {i : Instr} {x : OperandReg} (h : firstUnwritten s i = some x) :
    exec i s = .next (operandFault i x s) := by
  rcases exec_cases i s with ⟨hnone, -⟩ | ⟨y, hy, he⟩
  · simp [hnone] at h
  · obtain rfl : y = x := by simpa [hy] using h
    exact he

/-- Settles O11. -/
theorem unwrittenOperandFaults : Obligations.UnwrittenOperandFaults := by
  intro i s x hx
  rw [← firstUnwritten_eq_find] at hx
  exact ⟨[], exec_of_firstUnwritten hx⟩

/-- Settles O12: the operation runs, and its outcome is committed. -/
theorem writtenOperandsComplete : Obligations.WrittenOperandsComplete := by
  intro i s hwritten
  have hnone : firstUnwritten s i = none := by
    simpa [firstUnwritten_eq_find] using hwritten
  obtain ⟨r, hr⟩ := exists_runs hnone
  have hcode := commit_statusCode_bounds s r
  exact ⟨_, hr.exec_eq, commit_faults s r, by bv_omega⟩

/-! ## The same command again -/

/-- A command leaves the parameters and every operand register (R36, R46). -/
theorem exec_next_keeps_operands {i : Instr} {s t : State} (h : exec i s = .next t) :
    t.params = s.params ∧ ∀ x, readOperand t x = readOperand s x := by
  rcases exec_next h with ⟨-, r, rfl, -⟩ | ⟨x, -, rfl⟩ <;> simp

/-- Committing an outcome again changes nothing. -/
theorem commit_commit (s : State) (r : OpRun) : commit (commit s r) r = commit s r := by
  cases r <;> rfl

/-- Settles O15: the first run leaves what the command's output depends on. -/
theorem commandTwiceChangesNothingMore : Obligations.CommandTwiceChangesNothingMore := by
  intro i s t hst
  obtain ⟨hparams, hreads⟩ := exec_next_keeps_operands hst
  have same := exec_sameOutput (op := i) (s := s) (t := t) ⟨hparams.symm, fun x _ => (hreads x).symm⟩
  rcases same with ⟨r, hs, ht⟩ | ⟨x, hs, ht⟩
  · obtain rfl : t = commit s r := by rw [hst] at hs; cases hs; rfl
    rw [commit_commit] at ht
    exact ⟨_, ht, rfl, rfl, rfl, fun _ => rfl⟩
  · obtain rfl : t = operandFault i x s := by rw [hst] at hs; cases hs; rfl
    exact ⟨_, ht, rfl, rfl, rfl, fun h => absurd h (operandFault_faults_ne i x s)⟩

end Sys2Proof.Proofs

namespace Sys2Proof.Proofs

open Sys2Proof.Machine Sys2Proof.Laws

/-! SUPPORT. The access trace: the lanes a command reads are a function of public lengths (R47 to R49). -/

/-- The lane reads of an outcome; a LengthError performs none (R47, R49). -/
def laneReads : OpRun → Option (List LaneRead)
  | .ok _ tr => some tr
  | .lengthError => none
  | .rangeError tr => some tr

/-- The trace of a commit is that of its outcome, empty for a LengthError (R47, R49). -/
theorem commit_trace (s : State) (r : OpRun) : (commit s r).trace = (laneReads r).getD [] := by
  cases r <;> rfl

/-- The outcomes without lane reads are those that commit LENGTH_ERROR (R49, R151). -/
theorem commit_code_eq_length_iff (s : State) (r : OpRun) :
    (commit s r).statusCode = codeLengthError ↔ laneReads r = none := by
  cases r <;> simp [laneReads, codeOk, codeLengthError, codeRangeError]

/-- A commit of another code leaves the lane reads of its outcome in the trace (R47). -/
theorem laneReads_of_code_ne {s : State} {r : OpRun} (h : (commit s r).statusCode ≠ codeLengthError) :
    laneReads r = some (commit s r).trace := by
  rw [ne_eq, commit_code_eq_length_iff] at h
  obtain ⟨tr, htr⟩ := Option.ne_none_iff_exists'.mp h
  rw [commit_trace, htr, Option.getD_some]

/-! ## The lane reads of each operation, as a function of its operands' lengths (R47, R49) -/

/-- A sweep from lane 0 reads every lane once, in order (R47). -/
theorem sweepLanes_zero_trace {α : Type} (mk : Nat → LaneRead) (xs : List α) :
    (sweepLanes mk 0 xs).trace = (List.range xs.length).map mk := by
  rw [sweepLanes_trace, List.range_eq_range']

theorem laneReads_opB2bits (n : Nat) (a : List Byte) :
    laneReads (opB2bits n a) = if n < 8 * a.length then none else some ((List.range a.length).map .a) := by
  unfold opB2bits
  split_ifs <;> simp [laneReads, sweepLanes_zero_trace]

theorem laneReads_opBits2b (a : List Byte) :
    laneReads (opBits2b a) = if a.length % 8 ≠ 0 then none else some ((List.range a.length).map .a) := by
  unfold opBits2b
  dsimp only
  split_ifs <;> simp [laneReads, sweepLanes_zero_trace]

theorem laneReads_opParsebe (a : List Byte) :
    laneReads (opParsebe a) = if a.length ≠ 8 then none else some ((List.range a.length).map .a) := by
  unfold opParsebe
  split_ifs <;> simp [laneReads, sweepLanes_zero_trace]

theorem laneReads_opParsele (a : List Byte) :
    laneReads (opParsele a) = if a.length ≠ 8 then none else some ((List.range a.length).map .a) := by
  unfold opParsele
  split_ifs <;> simp [laneReads, sweepLanes_zero_trace]

theorem laneReads_opRevb (a : List Byte) : laneReads (opRevb a) = some ((List.range a.length).map .a) := by
  rw [opRevb_eq, laneReads, sweepLanes_zero_trace]

theorem laneReads_opSela (t : List (List Byte)) (k : BitVec 32) :
    laneReads (opSela t k) = if isRagged t then none else some (.idx :: (sweepTable 0 t).trace) := by
  unfold opSela
  dsimp only
  split_ifs <;> rfl

theorem laneReads_opSels (w : Nat) (t : List Nat) (k : BitVec 32) :
    laneReads (opSels w t k) = some (.idx :: (List.range t.length).map .ts) := by
  unfold opSels
  dsimp only
  split_ifs <;> simp [laneReads, sweepLanes_zero_trace]

theorem laneReads_opXor (a b : List Byte) :
    laneReads (opXor a b) = if a.length ≠ 16 ∨ b.length ≠ 16 then none
      else some ((List.range a.length).map .a ++ (List.range b.length).map .b) := by
  unfold opXor
  split_ifs <;> simp [laneReads, sweepLanes_zero_trace]

theorem laneReads_opMux (a b : List Byte) (sel : BitVec 8) :
    laneReads (opMux a b sel) = if a.length ≠ 16 ∨ b.length ≠ 16 then none
      else some (.sel :: ((List.range a.length).map .a ++ (List.range b.length).map .b)) := by
  unfold opMux
  dsimp only
  split_ifs <;> simp [laneReads, sweepLanes_zero_trace]

theorem laneReads_opIncw (a : List Byte) :
    laneReads (opIncw a) = if a.length ≠ 16 then none else some ((List.range a.length).map .a) := by
  unfold opIncw
  split_ifs <;> simp [laneReads, sweepLanes_zero_trace]

/-! ## The canonical trace -/

/-- Settles O17: each operation's lane reads, past its length check. -/
theorem canonicalTraceIsRead : Obligations.CanonicalTraceIsRead := by
  refine ⟨fun s w rest t hpending hill ht => ?_, fun i s t h => ⟨fun hf => ?_, fun hf hcode => ?_, fun hf hcode => ?_⟩⟩
  · rw [step_of_pending hpending] at ht
    cases (execute_of_illegal hill _).symm.trans ht
    rfl
  · rcases exec_next_runs h with ⟨r, -, rfl⟩ | ⟨x, -, rfl⟩
    · exact absurd (commit_faults s r) hf
    · rfl
  · obtain ⟨r, -, rfl⟩ := exec_next_runs_of_faults_eq h hf
    rw [commit_trace, (commit_code_eq_length_iff s r).mp hcode, Option.getD_none]
  · obtain ⟨r, hr, rfl⟩ := exec_next_runs_of_faults_eq h hf
    have hreads := laneReads_of_code_ne hcode
    cases hr with
    | b2bits ha | bits2b ha =>
      simp only [laneReads_opB2bits, laneReads_opBits2b, Option.ite_none_left_eq_some, Option.some.injEq] at hreads
      exact ⟨_, ha, hreads.2.symm⟩
    | revb ha =>
      rw [laneReads_opRevb, Option.some.injEq] at hreads
      exact ⟨_, ha, hreads.symm⟩
    | parsebe ha | parsele ha | incw ha =>
      simp only [laneReads_opParsebe, laneReads_opParsele, laneReads_opIncw, Option.ite_none_left_eq_some, not_not,
        Option.some.injEq] at hreads
      obtain ⟨hlen, htrace⟩ := hreads
      rw [← htrace, hlen]
    | sels ht hk =>
      rw [laneReads_opSels, Option.some.injEq] at hreads
      exact ⟨_, ht, hreads.symm⟩
    | xor ha hb =>
      rw [laneReads_opXor, Option.ite_none_left_eq_some, not_or, not_not, not_not, Option.some.injEq] at hreads
      obtain ⟨⟨hla, hlb⟩, htrace⟩ := hreads
      rw [← htrace, hla, hlb]
    | mux ha hb hsel =>
      rw [laneReads_opMux, Option.ite_none_left_eq_some, not_or, not_not, not_not, Option.some.injEq] at hreads
      obtain ⟨⟨hla, hlb⟩, htrace⟩ := hreads
      rw [← htrace, hla, hlb]
    | sela ht hk =>
      rename_i t k
      rw [laneReads_opSela, Option.ite_none_left_eq_some, Bool.not_eq_true, isRagged_eq_false_iff,
        Option.some.injEq] at hreads
      obtain ⟨hlen, htrace⟩ := hreads
      have hentry : ∀ e ∈ t, e.length = entryLength t := fun e => length_eq_entryLength hlen
      refine ⟨t, entryLength t, ht, hentry, ?_⟩
      rw [← htrace, sweepTable_trace t _ 0 hentry, List.range_eq_range' (n := t.length)]

/-! ## One public shape -/

/-- A buffer or table in a state of the same public shape: written as well, and of one public length (R48). -/
theorem exists_of_map_eq {α β : Type} {f : α → β} {o o' : Option α} {v : α} (h : o.map f = o'.map f)
    (hv : o = some v) : ∃ v', o' = some v' ∧ f v' = f v := by
  rw [hv] at h
  exact Option.map_eq_some_iff.mp h.symm

/-- The index or the selector in a state of the same public shape: written as well (R48). -/
theorem exists_of_isSome_eq {α : Type} {o o' : Option α} {v : α} (h : o.isSome = o'.isSome) (hv : o = some v) :
    ∃ v', o' = some v' := by
  rw [hv] at h
  exact Option.isSome_iff_exists.mp h.symm

/-- Raggedness depends on the entry lengths alone (R101). -/
theorem isRagged_congr {t u : List (List Byte)} (h : t.map List.length = u.map List.length) :
    isRagged t = isRagged u := by
  have hragged : ∀ t : List (List Byte),
      isRagged t = (t.map List.length).any fun n => n != (t.map List.length).headD 0 := by
    intro t
    cases t <;> simp [isRagged, entryLength, Function.comp_def]
  rw [hragged t, hragged u, h]

/-- In a state of the same public shape an operation runs to an outcome with the same lane reads (R48). -/
theorem Runs.exists_laneReads_eq {s t : State} {i : Instr} {r : OpRun} (h : Runs s i r)
    (hshape : publicShape s = publicShape t) : ∃ r', Runs t i r' ∧ laneReads r' = laneReads r := by
  simp only [publicShape, PublicShape.mk.injEq] at hshape
  obtain ⟨hparams, hA, hB, hTB, hTS, hIDX, hSEL⟩ := hshape
  cases h with
  | b2bits ha =>
    obtain ⟨a', ha', hla⟩ := exists_of_map_eq hA ha
    exact ⟨_, .b2bits ha', by rw [laneReads_opB2bits, laneReads_opB2bits, hla, hparams]⟩
  | bits2b ha =>
    obtain ⟨a', ha', hla⟩ := exists_of_map_eq hA ha
    exact ⟨_, .bits2b ha', by rw [laneReads_opBits2b, laneReads_opBits2b, hla]⟩
  | parsebe ha =>
    obtain ⟨a', ha', hla⟩ := exists_of_map_eq hA ha
    exact ⟨_, .parsebe ha', by rw [laneReads_opParsebe, laneReads_opParsebe, hla]⟩
  | parsele ha =>
    obtain ⟨a', ha', hla⟩ := exists_of_map_eq hA ha
    exact ⟨_, .parsele ha', by rw [laneReads_opParsele, laneReads_opParsele, hla]⟩
  | revb ha =>
    obtain ⟨a', ha', hla⟩ := exists_of_map_eq hA ha
    exact ⟨_, .revb ha', by rw [laneReads_opRevb, laneReads_opRevb, hla]⟩
  | sela ht hk =>
    obtain ⟨t', ht', hlt⟩ := exists_of_map_eq hTB ht
    obtain ⟨k', hk'⟩ := exists_of_isSome_eq hIDX hk
    refine ⟨_, .sela ht' hk', ?_⟩
    rw [laneReads_opSela, laneReads_opSela, isRagged_congr hlt, sweepTable_trace_lengths _ _ 0 hlt]
  | sels ht hk =>
    obtain ⟨t', ht', hlt⟩ := exists_of_map_eq hTS ht
    obtain ⟨k', hk'⟩ := exists_of_isSome_eq hIDX hk
    exact ⟨_, .sels ht' hk', by rw [laneReads_opSels, laneReads_opSels, hlt]⟩
  | xor ha hb =>
    obtain ⟨a', ha', hla⟩ := exists_of_map_eq hA ha
    obtain ⟨b', hb', hlb⟩ := exists_of_map_eq hB hb
    exact ⟨_, .xor ha' hb', by rw [laneReads_opXor, laneReads_opXor, hla, hlb]⟩
  | mux ha hb hsel =>
    obtain ⟨a', ha', hla⟩ := exists_of_map_eq hA ha
    obtain ⟨b', hb', hlb⟩ := exists_of_map_eq hB hb
    obtain ⟨sel', hsel'⟩ := exists_of_isSome_eq hSEL hsel
    exact ⟨_, .mux ha' hb' hsel', by rw [laneReads_opMux, laneReads_opMux, hla, hlb]⟩
  | incw ha =>
    obtain ⟨a', ha', hla⟩ := exists_of_map_eq hA ha
    exact ⟨_, .incw ha', by rw [laneReads_opIncw, laneReads_opIncw, hla]⟩

/-- The written marks are public (R48). -/
theorem isWritten_congr {s t : State} (hshape : publicShape s = publicShape t) (x : OperandReg) :
    isWritten s x = isWritten t x := by
  simp only [publicShape, PublicShape.mk.injEq] at hshape
  obtain ⟨-, hA, hB, hTB, hTS, hIDX, hSEL⟩ := hshape
  cases x with
  | A => simpa [isWritten, readOperand] using congrArg Option.isSome hA
  | B => simpa [isWritten, readOperand] using congrArg Option.isSome hB
  | TB => simpa [isWritten, readOperand] using congrArg Option.isSome hTB
  | TS => simpa [isWritten, readOperand] using congrArg Option.isSome hTS
  | IDX => simpa [isWritten, readOperand] using hIDX
  | SEL => simpa [isWritten, readOperand] using hSEL

/-- Settles O16: both states run to outcomes with the same lane reads, or fault on the same register. -/
theorem accessTraceIgnoresSecrets : Obligations.AccessTraceIgnoresSecrets := by
  intro i s t s' hshape hs
  rcases exec_next_runs hs with ⟨r, hr, rfl⟩ | ⟨x, hx, rfl⟩
  · obtain ⟨r', hr', hreads⟩ := hr.exists_laneReads_eq hshape
    refine ⟨_, [], hr'.exec_eq, ?_, by simp, by simp⟩
    rw [commit_trace, commit_trace, hreads]
  · have hx' : firstUnwritten t i = some x := by
      simpa only [firstUnwritten, isWritten_congr hshape] using hx
    exact ⟨_, _, exec_of_firstUnwritten hx', rfl, rfl, rfl⟩

end Sys2Proof.Proofs

namespace Sys2Proof.Proofs

open Sys2Proof.Machine Sys2Proof.Laws

/-! SUPPORT. The state invariant: what each operation leaves in RESULT is within capacity (R22 to R30). -/

/-! ## What an operation leaves in RESULT -/

/-- A value that an outcome commits is one that RESULT can hold under the parameters `p` (R30). -/
def RunFits (p : Config.Params) (r : OpRun) : Prop := ∀ v tr, r = .ok v tr → resultFits p v = true

theorem runFits_ok {p : Config.Params} {v : Result} {tr : List LaneRead} (h : resultFits p v = true) :
    RunFits p (.ok v tr) := by
  rintro _ _ ⟨⟩
  exact h

theorem runFits_lengthError (p : Config.Params) : RunFits p .lengthError := by
  rintro _ _ ⟨⟩

theorem runFits_rangeError (p : Config.Params) (tr : List LaneRead) : RunFits p (.rangeError tr) := by
  rintro _ _ ⟨⟩

/-- Lanes fit when the capacity allows them (R30). -/
theorem runFits_lanes {p : Config.Params} {v : List Byte} {tr : List LaneRead} (h : v.length ≤ p.maxLanes) :
    RunFits p (.ok (.lanes v) tr) :=
  runFits_ok (decide_eq_true h)

theorem runFits_opB2bits (p : Config.Params) (a : List Byte) : RunFits p (opB2bits p.maxLanes a) := by
  rcases Nat.lt_or_ge p.maxLanes (8 * a.length) with hexceeds | hfits
  · rw [opB2bits_of_exceeds hexceeds]
    exact runFits_lengthError p
  · rw [opB2bits_of_fits hfits]
    exact runFits_lanes ((flatMap_byteToBits_length a).trans_le hfits)

theorem runFits_opBits2b {p : Config.Params} {a : List Byte} (ha : a.length ≤ p.maxLanes) :
    RunFits p (opBits2b a) := by
  by_cases hlen : a.length % 8 = 0
  · by_cases hbad : ∃ b ∈ a, 1 < b.toNat
    · rw [opBits2b_of_badBit hlen hbad]
      exact runFits_rangeError p _
    · push Not at hbad
      rw [opBits2b_of_bits hlen hbad]
      exact runFits_lanes (by rw [packBits_length]; omega)
  · rw [opBits2b_of_length hlen]
    exact runFits_lengthError p

theorem runFits_opParsebe (p : Config.Params) (a : List Byte) : RunFits p (opParsebe a) := by
  unfold opParsebe
  split_ifs
  · exact runFits_lengthError p
  · exact runFits_ok rfl

theorem runFits_opParsele (p : Config.Params) (a : List Byte) : RunFits p (opParsele a) := by
  unfold opParsele
  split_ifs
  · exact runFits_lengthError p
  · exact runFits_ok rfl

theorem runFits_opRevb {p : Config.Params} {a : List Byte} (ha : a.length ≤ p.maxLanes) : RunFits p (opRevb a) := by
  rw [opRevb_eq]
  exact runFits_lanes (by rwa [List.length_reverse])

/-- SELA selects an entry of the table, which is within capacity (R25, R100). -/
theorem runFits_opSela {p : Config.Params} {t : List (List Byte)} (ht : ∀ e ∈ t, e.length ≤ p.maxLanes)
    (k : BitVec 32) : RunFits p (opSela t k) := by
  by_cases hlen : ∀ d ∈ t, ∀ e ∈ t, d.length = e.length
  · rcases Nat.lt_or_ge k.toNat t.length with hin | hout
    · rw [opSela_of_entry hlen (List.getElem?_eq_getElem hin)]
      exact runFits_lanes (ht _ (List.getElem_mem hin))
    · rw [opSela_of_outside hlen hout]
      exact runFits_rangeError p _
  · push Not at hlen
    rw [opSela_of_ragged k hlen]
    exact runFits_lengthError p

/-- SELS reduces the scalar it selects modulo `2^SCALAR_W` (R105). -/
theorem runFits_opSels (p : Config.Params) (t : List Nat) (k : BitVec 32) : RunFits p (opSels p.scalarW t k) := by
  rcases Nat.lt_or_ge k.toNat t.length with hin | hout
  · rw [opSels_of_scalar _ (List.getElem?_eq_getElem hin)]
    exact runFits_ok (decide_eq_true (Nat.mod_lt _ (by positivity)))
  · rw [opSels_of_outside _ hout]
    exact runFits_rangeError p _

/-- Legal parameters hold a block (R7). -/
theorem length_le_maxLanes_of_block {p : Config.Params} (hp : Config.paramsOk p = true) {v : List Byte}
    (hv : v.length = 16) : v.length ≤ p.maxLanes := by
  simp [Config.paramsOk] at hp
  omega

theorem runFits_opXor {p : Config.Params} (hp : Config.paramsOk p = true) (a b : List Byte) :
    RunFits p (opXor a b) := by
  by_cases hlen : a.length ≠ 16 ∨ b.length ≠ 16
  · rw [opXor_of_length_ne hlen]
    exact runFits_lengthError p
  · push Not at hlen
    obtain ⟨hla, hlb⟩ := hlen
    rw [opXor_of_length hla hlb]
    exact runFits_lanes (length_le_maxLanes_of_block hp (by simp [hla, hlb]))

theorem runFits_opMux {p : Config.Params} (hp : Config.paramsOk p = true) (a b : List Byte) (sel : BitVec 8) :
    RunFits p (opMux a b sel) := by
  by_cases hlen : a.length ≠ 16 ∨ b.length ≠ 16
  · rw [opMux_of_length_ne sel hlen]
    exact runFits_lengthError p
  · push Not at hlen
    obtain ⟨hla, hlb⟩ := hlen
    rcases Nat.lt_or_ge 1 sel.toNat with hgt | hle
    · rw [opMux_of_sel_gt hla hlb hgt]
      exact runFits_rangeError p _
    · rw [opMux_of_sel_le hla hlb hle]
      exact runFits_lanes (length_le_maxLanes_of_block hp (by simp [hla, hlb]))

theorem runFits_opIncw {p : Config.Params} (hp : Config.paramsOk p = true) (a : List Byte) :
    RunFits p (opIncw a) := by
  by_cases hlen : a.length = 16
  · rw [opIncw_of_length hlen]
    exact runFits_lanes (length_le_maxLanes_of_block hp (nextCounterBlock_length hlen))
  · rw [opIncw_of_length_ne hlen]
    exact runFits_lengthError p

/-! ## The invariant -/

/-- A written register of a state within the invariant holds what the capacities allow (R34). -/
theorem withinCapacity_of_stateInv {s : State} (h : StateInv s) {x : OperandReg} {v : OperandValue}
    (hx : readOperand s x = some v) : withinCapacity s.params v := by
  have hfits := h.operands_fit x
  rw [operandFits, hx] at hfits
  exact (fits_iff_withinCapacity _ _).mp hfits

/-- A buffer in A is within capacity (R22). -/
theorem a_length_le_of_stateInv {s : State} (h : StateInv s) {a : List Byte} (ha : s.a = some a) :
    a.length ≤ s.params.maxLanes :=
  withinCapacity_of_stateInv h (x := .A) (v := .a a) (by simp [readOperand, ha])

/-- The entries of a table in TB are within capacity (R25). -/
theorem tb_entries_le_of_stateInv {s : State} (h : StateInv s) {t : List (List Byte)} (ht : s.tb = some t) :
    ∀ e ∈ t, e.length ≤ s.params.maxLanes :=
  (withinCapacity_of_stateInv h (x := .TB) (v := .tb t) (by simp [readOperand, ht])).2

/-- Within the invariant every operation runs to an outcome that fits (R30). -/
theorem Runs.fits {s : State} {i : Instr} {r : OpRun} (h : Runs s i r) (hs : StateInv s) : RunFits s.params r := by
  cases h with
  | b2bits ha => exact runFits_opB2bits _ _
  | bits2b ha => exact runFits_opBits2b (a_length_le_of_stateInv hs ha)
  | parsebe ha => exact runFits_opParsebe _ _
  | parsele ha => exact runFits_opParsele _ _
  | revb ha => exact runFits_opRevb (a_length_le_of_stateInv hs ha)
  | sela ht hk => exact runFits_opSela (tb_entries_le_of_stateInv hs ht) _
  | sels ht hk => exact runFits_opSels _ _ _
  | xor ha hb => exact runFits_opXor hs.params_ok _ _
  | mux ha hb hsel => exact runFits_opMux hs.params_ok _ _ _
  | incw ha => exact runFits_opIncw hs.params_ok _

/-- The invariant speaks of the parameters, the operand registers, STATUS.CODE, RESULT and the recorded operand faults
only. -/
theorem stateInv_congr {s t : State} (h : StateInv s) (hparams : t.params = s.params)
    (hregs : ∀ x, readOperand t x = readOperand s x) (hcode : t.statusCode = s.statusCode)
    (hresult : t.result = s.result)
    (hfaults : ∀ op x, .unwrittenOperand op x ∈ t.faults → .unwrittenOperand op x ∈ s.faults) : StateInv t where
  params_ok := hparams ▸ h.params_ok
  operands_fit x := by simpa only [operandFits, hregs, hparams] using h.operands_fit x
  code_legal := hcode ▸ h.code_legal
  result_fits := by simpa only [hresult, hparams] using h.result_fits
  idle_none := by simpa only [hcode, hresult] using h.idle_none
  ok_written := by simpa only [hcode, hresult] using h.ok_written
  faults_named op x hmem := h.faults_named op x (hfaults op x hmem)

/-- A state whose operand registers are unwritten meets the invariant when it is IDLE with RESULT.KIND NONE (R37). -/
theorem stateInv_of_unwritten {s : State} (hparams : Config.paramsOk s.params = true)
    (hregs : ∀ x, readOperand s x = none) (hcode : s.statusCode = codeIdle) (hresult : s.result = .none)
    (hfaults : ∀ op x, .unwrittenOperand op x ∈ s.faults → x ∈ reads op) : StateInv s where
  params_ok := hparams
  operands_fit x := by rw [operandFits, hregs]
  code_legal := by rw [hcode]; decide
  result_fits := by rw [hresult]; rfl
  idle_none _ := hresult
  ok_written hok := by simp [hcode, codeIdle, codeOk] at hok
  faults_named := hfaults

/-- A host write within capacity keeps the invariant (R34). -/
theorem stateInv_writeOperand {s : State} (h : StateInv s) {v : OperandValue} (hv : fits s.params v = true) :
    StateInv (writeOperand s v) where
  params_ok := by simpa using h.params_ok
  operands_fit x := by
    by_cases hx : x = regOf v
    · subst hx
      simpa [operandFits, readOperand_writeOperand_same] using hv
    · simpa only [operandFits, readOperand_writeOperand_other s v x hx, writeOperand_params] using h.operands_fit x
  code_legal := by simpa using h.code_legal
  result_fits := by simpa using h.result_fits
  idle_none := by simpa using h.idle_none
  ok_written := by simpa using h.ok_written
  faults_named := by simpa using h.faults_named

/-- The commit of an outcome that fits keeps the invariant (R152, R153). -/
theorem stateInv_commit {s : State} (h : StateInv s) {r : OpRun} (hfits : RunFits s.params r)
    (hnone : ∀ tr, r ≠ .ok .none tr) : StateInv (commit s r) where
  params_ok := by simpa using h.params_ok
  operands_fit x := by simpa only [operandFits, readOperand_commit, commit_params] using h.operands_fit x
  code_legal := (commit_statusCode_bounds s r).2.trans (by decide)
  result_fits := by
    rw [commit_params]
    cases r with
    | ok v tr => exact hfits v tr rfl
    | lengthError => exact h.result_fits
    | rangeError tr => exact h.result_fits
  idle_none hidle := by
    have := (commit_statusCode_bounds s r).1
    simp [hidle] at this
  ok_written := commit_result_ne_none hnone
  faults_named := by simpa using h.faults_named

/-- The illegal command keeps the invariant (R64). -/
theorem stateInv_illegalCommand {s : State} (h : StateInv s) : StateInv (illegalCommand s) where
  params_ok := h.params_ok
  operands_fit x := by
    simpa only [operandFits, readOperand_illegalCommand, illegalCommand_params] using h.operands_fit x
  code_legal := (by decide : codeIllegal.toNat ≤ 4)
  result_fits := h.result_fits
  idle_none hidle := absurd hidle (by decide : codeIllegal ≠ codeIdle)
  ok_written hok := absurd hok (by decide : codeIllegal ≠ codeOk)
  faults_named := h.faults_named

/-- The fault of an operand that the operation reads keeps the invariant (R158). -/
theorem stateInv_operandFault {s : State} (h : StateInv s) {op : Instr} {x : OperandReg} (hx : x ∈ reads op) :
    StateInv (operandFault op x s) where
  params_ok := h.params_ok
  operands_fit y := by simpa only [operandFits, readOperand_operandFault, operandFault_params] using h.operands_fit y
  code_legal := h.code_legal
  result_fits := h.result_fits
  idle_none := h.idle_none
  ok_written := h.ok_written
  faults_named op' y hmem := by
    rw [operandFault_faults, List.mem_append, List.mem_singleton] at hmem
    rcases hmem with hold | hnew
    · exact h.faults_named op' y hold
    · cases hnew
      exact hx

/-- The register that the operand check names is one the operation reads (R67). -/
theorem mem_reads_of_firstUnwritten {s : State} {i : Instr} {x : OperandReg} (h : firstUnwritten s i = some x) :
    x ∈ reads i :=
  List.mem_of_find?_eq_some h

/-- What an operation runs to is no success without a value (R30, R153). -/
theorem Runs.ne_ok_none {s : State} {i : Instr} {r : OpRun} (h : Runs s i r) (tr : List LaneRead) :
    r ≠ .ok .none tr := by
  rintro rfl
  rcases exec_next h.exec_eq with ⟨-, r', hr', hne⟩ | ⟨x, -, hfault⟩
  · exact commit_result_ne_none hne (by rw [← hr', commit_ok_code]) (by rw [← hr', commit_ok_result])
  · exact operandFault_faults_ne i x s (by rw [← hfault, commit_faults])

/-- Every command keeps the invariant (R66). -/
theorem stateInv_exec {s t : State} {i : Instr} (h : StateInv s) (ht : exec i s = .next t) : StateInv t := by
  rcases exec_next_runs ht with ⟨r, hr, rfl⟩ | ⟨x, hx, rfl⟩
  · exact stateInv_commit h (hr.fits h) hr.ne_ok_none
  · exact stateInv_operandFault h (mem_reads_of_firstUnwritten hx)

/-- Every host action keeps the invariant (R170). -/
theorem stateInv_perform {s t : State} {act : HostAction} (h : StateInv s) (ht : perform act s = .next t) :
    StateInv t := by
  rcases perform_next ht with ⟨v, -, hv, rfl⟩ | ⟨w, i, -, -, he⟩ | ⟨w, -, -, rfl⟩ | ⟨o, rfl⟩ | ⟨o, v, rfl⟩ | ⟨x, rfl⟩ |
    ⟨-, rfl⟩
  · exact stateInv_writeOperand h hv
  · exact stateInv_exec h he
  · exact stateInv_illegalCommand h
  · exact stateInv_congr h rfl (readOperand_observe s o) rfl rfl fun _ _ => id
  · exact stateInv_congr h rfl (readOperand_observe s o) rfl rfl fun _ _ => id
  · exact stateInv_congr h rfl (readOperand_recordFault s _) rfl rfl fun _ _ => by simp
  · exact stateInv_of_unwritten h.params_ok (readOperand_resetEvent s) rfl rfl h.faults_named

/-- Taking an action off the host's script changes no register (R50). -/
@[simp] theorem readOperand_pending (s : State) (acts : List HostAction) (x : OperandReg) :
    readOperand { s with pending := acts } x = readOperand s x := by
  cases x <;> rfl

/-- A block with no host action left is quiescent (R168, R181). -/
theorem step_of_pending_nil {s : State} (h : s.pending = []) : step s = .next s := by
  simp [step, nextAction, h]

/-- Settles O3. -/
theorem quiescentWithoutHostAction : Obligations.QuiescentWithoutHostAction := fun _ => step_of_pending_nil

/-- Settles O46: a step is the host's next action, or with none left no change. -/
theorem stepKeepsStateInvariant : Obligations.StepKeepsStateInvariant := by
  intro s t hs ht
  cases hpending : s.pending with
  | nil =>
    cases (step_of_pending_nil hpending).symm.trans ht
    exact hs
  | cons act rest =>
    rw [step_of_pending hpending] at ht
    have hrest : StateInv { s with pending := rest } :=
      stateInv_congr hs rfl (readOperand_pending s rest) rfl rfl fun _ _ => id
    exact stateInv_perform hrest ht

/-- The invariant holds of the reset state of legal parameters (R7, R37). -/
theorem stateInv_resetOf {p : Config.Params} (hp : Config.paramsOk p = true) : StateInv (State.resetOf p) :=
  stateInv_of_unwritten hp (readOperand_resetOf p) rfl rfl fun _ _ => by simp [State.resetOf]

/-- Settles O45. -/
theorem invariantHoldsAtReset : Obligations.InvariantHoldsAtReset :=
  ⟨stateInv_resetOf (by decide), fun _ => stateInv_resetOf⟩

end Sys2Proof.Proofs

namespace Sys2Proof.Proofs

open Sys2Proof.Machine Sys2Proof.Laws

/-! SUPPORT. The host's actions one by one (R34, R46, R70, R159, R170), and what a step can change. -/

/-! ## Host writes -/

/-- A host write within capacity writes its register (R34). -/
theorem hostWrite_of_fits {s : State} {v : OperandValue} (h : withinCapacity s.params v) :
    hostWrite v s = .next (writeOperand s v) :=
  if_pos ((fits_iff_withinCapacity _ _).mpr h)

/-- A host write beyond capacity has no move (R34; log 9). -/
theorem hostWrite_of_exceeds {s : State} {v : OperandValue} (h : ¬ withinCapacity s.params v) :
    hostWrite v s = .refused (.noMove .beyondCapacity) :=
  if_neg fun hv => h ((fits_iff_withinCapacity _ _).mp hv)

/-- A host write that answers a next state has written its register (R34). -/
theorem hostWrite_next {s t : State} {v : OperandValue} (h : hostWrite v s = .next t) : t = writeOperand s v := by
  unfold hostWrite at h
  split_ifs at h
  cases h
  rfl

/-- Settles O36. -/
theorem hostWriteSetsOneRegister : Obligations.HostWriteSetsOneRegister := by
  intro s v rest hpending
  rw [step_of_pending hpending]
  refine ⟨fun hv => ⟨_, hostWrite_of_fits hv, readOperand_writeOperand_same _ v, fun x hx => ?_, ?_⟩,
    fun hv => hostWrite_of_exceeds hv⟩
  · rw [readOperand_writeOperand_other _ v x hx, readOperand_pending]
  · simp

/-- Settles O39. -/
theorem forbiddenActionsAreRefused : Obligations.ForbiddenActionsAreRefused :=
  ⟨fun _ _ _ => step_of_pending, fun _ _ _ => step_of_pending, fun _ _ => step_of_pending,
    fun _ _ _ _ _ => step_of_pending⟩

/-! ## Host reads -/

/-- A read of a written operand register gives the host its contents (R170). -/
theorem hostRead_of_some {s : State} {x : OperandReg} {v : OperandValue} (h : readOperand s x = some v) :
    hostRead x s = .next (observe (.operand v) s) := by
  simp [hostRead, h]

/-- A read of an unwritten operand register records the fault UnwrittenRead (R159). -/
theorem hostRead_of_none {s : State} {x : OperandReg} (h : readOperand s x = none) :
    hostRead x s = .next (recordFault (.unwrittenRead (.operand x)) s) := by
  simp [hostRead, h]

/-- A read of RESULT gives the host its kind and payload once it has one (R170). -/
theorem hostReadResult_of_ne_none {s : State} (h : s.result ≠ .none) :
    hostReadResult s = .next (observe (.result s.result) s) := by
  unfold hostReadResult
  split
  · exact absurd ‹_› h
  · rfl

/-- A read of RESULT while its kind is NONE records the fault UnwrittenRead (R159). -/
theorem hostReadResult_of_none {s : State} (h : s.result = .none) :
    hostReadResult s = .next (recordFault (.unwrittenRead .resultPayload) s) := by
  simp [hostReadResult, h]

/-- RESULT.KIND names the form of RESULT (R30). -/
theorem resultKind_iff (r : Result) :
    (resultKind r = .NONE ↔ r = .none) ∧ (resultKind r = .LANES ↔ ∃ v, r = .lanes v) ∧
      (resultKind r = .U64 ↔ ∃ v, r = .u64 v) ∧ (resultKind r = .SCALAR ↔ ∃ v, r = .scalar v) := by
  cases r <;> simp [resultKind]

/-- Settles O37. -/
theorem unwrittenReadFaults : Obligations.UnwrittenReadFaults := by
  refine ⟨fun s x rest hpending => ?_, fun s rest hpending => ?_, fun s rest hpending => ?_,
    fun s rest hpending => ?_⟩ <;>
    rw [step_of_pending hpending]
  · exact ⟨fun hx => hostRead_of_none ((readOperand_pending s rest x).trans hx),
      fun v hx => hostRead_of_some ((readOperand_pending s rest x).trans hx)⟩
  · exact ⟨fun hr => hostReadResult_of_none hr, fun hr => hostReadResult_of_ne_none hr⟩
  · exact ⟨resultKind s.result, rfl, resultKind_iff s.result⟩
  · exact ⟨statusWord s, rfl, statusWord_low s, statusWord_high s⟩

/-! ## mov -/

/-- A mov reads the lanes of RESULT and leaves their write as the next action (R70). -/
theorem hostMov_of_lanes (mk : List Byte → OperandValue) {s : State} {v : List Byte} (h : s.result = .lanes v) :
    hostMov mk s = .next { observe (.result (.lanes v)) s with pending := .wr (mk v) :: s.pending } := by
  simp [hostMov, h]

/-- A mov of an unwritten RESULT faults as the read does (R70, R159). -/
theorem hostMov_of_none (mk : List Byte → OperandValue) {s : State} (h : s.result = .none) :
    hostMov mk s = .next (recordFault (.unwrittenRead .resultPayload) s) := by
  simp [hostMov, h]

/-- A mov of a RESULT without lanes has no move (R70; log 9). -/
theorem hostMov_of_nonLanes (mk : List Byte → OperandValue) {s : State}
    (h : (∃ v, s.result = .u64 v) ∨ ∃ v, s.result = .scalar v) :
    hostMov mk s = .refused (.noMove .movOfNonLanes) := by
  rcases h with ⟨v, hv⟩ | ⟨v, hv⟩ <;> simp [hostMov, hv]

/-- A mov of a RESULT within capacity is a read and then the write of its lanes (R70). -/
theorem step_step_of_mov {mk : List Byte → OperandValue} {s : State} {act : HostAction} {rest : List HostAction}
    {v : List Byte} (hpending : s.pending = act :: rest) (hact : perform act = hostMov mk) (hr : s.result = .lanes v)
    (hv : withinCapacity s.params (mk v)) :
    ∃ t, step s = .next t ∧
      step t = .next (writeOperand (observe (.result (.lanes v)) { s with pending := rest }) (mk v)) := by
  rw [step_of_pending hpending, hact]
  refine ⟨_, hostMov_of_lanes mk hr, ?_⟩
  rw [step_of_pending rfl]
  exact hostWrite_of_fits hv

/-- Settles O40. -/
theorem movCopiesResultLanes : Obligations.MovCopiesResultLanes := by
  refine ⟨fun s rest v hpending hr hv => step_step_of_mov (mk := .a) hpending rfl hr hv,
    fun s rest v hpending hr hv => step_step_of_mov (mk := .b) hpending rfl hr hv,
    fun s rest act hact hpending => ?_⟩
  obtain ⟨mk, hmov⟩ : ∃ mk, perform act = hostMov mk := by
    rcases hact with rfl | rfl <;> exact ⟨_, rfl⟩
  rw [step_of_pending hpending, hmov]
  exact ⟨fun hr => hostMov_of_none mk hr, fun hr => hostMov_of_nonLanes mk hr⟩

/-! ## What a step can change -/

/-- A host action writes one operand register, resets, or leaves every operand register (R46, R170). -/
theorem perform_operands {act : HostAction} {s t : State} (h : perform act s = .next t) :
    (∃ v, act = .wr v ∧ t = writeOperand s v) ∨ (act = .reset ∧ t = resetEvent s) ∨
      ∀ x, readOperand t x = readOperand s x := by
  rcases perform_next h with ⟨v, hact, -, ht⟩ | ⟨w, i, -, -, he⟩ | ⟨w, -, -, rfl⟩ | ⟨o, rfl⟩ | ⟨o, v, rfl⟩ | ⟨x, rfl⟩ |
    hreset
  · exact .inl ⟨v, hact, ht⟩
  · exact .inr (.inr (exec_next_keeps_operands he).2)
  · exact .inr (.inr (readOperand_illegalCommand s))
  · exact .inr (.inr (readOperand_observe s o))
  · exact .inr (.inr (readOperand_observe s o))
  · exact .inr (.inr (readOperand_recordFault s _))
  · exact .inr (.inl hreset)

/-- Settles O41. -/
theorem onlyHostWritesChangeOperands : Obligations.OnlyHostWritesChangeOperands := by
  intro s act rest t x hpending ht hx
  rw [step_of_pending hpending] at ht
  rcases perform_operands ht with ⟨v, hact, rfl⟩ | ⟨hact, -⟩ | hkept
  · refine .inr ⟨v, hact, ?_⟩
    by_contra hne
    rw [readOperand_writeOperand_other _ v x (Ne.symm hne), readOperand_pending] at hx
    exact hx rfl
  · exact .inl hact
  · rw [hkept, readOperand_pending] at hx
    exact absurd rfl hx

/-- A write leaves every written register written (R35). -/
theorem readOperand_writeOperand_ne_none {s : State} (v : OperandValue) {x : OperandReg}
    (h : readOperand s x ≠ none) : readOperand (writeOperand s v) x ≠ none := by
  by_cases hx : x = regOf v
  · rw [hx, readOperand_writeOperand_same]
    exact Option.some_ne_none v
  · rwa [readOperand_writeOperand_other s v x hx]

/-- A commit leaves RESULT of some kind (R30, R153). -/
theorem commit_keeps_result_ne_none {s : State} {r : OpRun} (hr : ∀ tr, r ≠ .ok .none tr) (h : s.result ≠ .none) :
    (commit s r).result ≠ .none := by
  by_cases hcode : (commit s r).statusCode = codeOk
  · exact commit_result_ne_none hr hcode
  · rwa [commit_result_of_code_ne hcode]

/-- A RESULT of some kind stays so under every action but a reset (R35). -/
theorem perform_result_ne_none {act : HostAction} {s t : State} (h : perform act s = .next t) (hact : act ≠ .reset)
    (hr : s.result ≠ .none) : t.result ≠ .none := by
  rcases perform_next h with ⟨v, -, -, rfl⟩ | ⟨w, i, -, -, he⟩ | ⟨w, -, -, rfl⟩ | ⟨o, rfl⟩ | ⟨o, v, rfl⟩ | ⟨x, rfl⟩ |
    ⟨hreset, -⟩
  · rwa [writeOperand_result]
  · rcases exec_next he with ⟨-, r, rfl, hne⟩ | ⟨x, -, rfl⟩
    · exact commit_keeps_result_ne_none hne hr
    · exact hr
  · exact hr
  · exact hr
  · exact hr
  · exact hr
  · exact absurd hreset hact

/-- Settles O42. -/
theorem writtenStaysWrittenUntilReset : Obligations.WrittenStaysWrittenUntilReset := by
  refine ⟨fun s act rest t hpending hact ht => ?_, fun s v rest t hpending ht => ?_, fun s rest t hpending ht => ?_⟩
  · rw [step_of_pending hpending] at ht
    refine ⟨fun x hx => ?_, (perform_result_ne_none ht hact :)⟩
    rcases perform_operands ht with ⟨v, -, rfl⟩ | ⟨hreset, -⟩ | hkept
    · exact readOperand_writeOperand_ne_none v (by rwa [readOperand_pending])
    · exact absurd hreset hact
    · rwa [hkept, readOperand_pending]
  · rw [step_of_pending hpending] at ht
    rw [hostWrite_next ht, readOperand_writeOperand_same]
    exact Option.some_ne_none v
  · rw [step_of_pending_reset hpending] at ht
    cases ht
    exact ⟨readOperand_resetEvent _, rfl⟩

/-- Every host action keeps the recorded faults in their places (R180, K19; log 6). -/
theorem perform_faults_prefix {act : HostAction} {s t : State} (h : perform act s = .next t) :
    s.faults <+: t.faults := by
  rcases perform_next h with ⟨v, -, -, rfl⟩ | ⟨w, i, -, -, he⟩ | ⟨w, -, -, rfl⟩ | ⟨o, rfl⟩ | ⟨o, v, rfl⟩ | ⟨x, rfl⟩ |
    ⟨-, rfl⟩
  · rw [writeOperand_faults]
  · rcases exec_next he with ⟨-, r, rfl, -⟩ | ⟨x, -, rfl⟩
    · rw [commit_faults]
    · exact List.prefix_append _ _
  · exact List.prefix_rfl
  · exact List.prefix_rfl
  · exact List.prefix_rfl
  · exact List.prefix_append _ _
  · exact List.prefix_rfl

/-- Settles O43. -/
theorem recordedFaultsStay : Obligations.RecordedFaultsStay := by
  intro s t ht
  cases hpending : s.pending with
  | nil =>
    cases (step_of_pending_nil hpending).symm.trans ht
    exact List.prefix_rfl
  | cons act rest =>
    rw [step_of_pending hpending] at ht
    exact (perform_faults_prefix ht :)

/-! ## What a step can stop on -/

/-- Every command answers a next state (R188). -/
theorem exists_exec_next (i : Instr) (s : State) : ∃ t, exec i s = .next t := by
  rcases exec_cases i s with ⟨-, r, he, -⟩ | ⟨x, -, he⟩ <;> exact ⟨_, he⟩

/-- Every CMD write answers a next state (R66, R188). -/
theorem exists_execute_next (w : CommandWord) (s : State) : ∃ t, execute w s = .next t := by
  cases hw : decode w with
  | operation i =>
    rw [execute_of_operation hw]
    exact exists_exec_next i s
  | illegal => exact ⟨_, execute_of_illegal hw s⟩

/-- A mov answers a next state, or RESULT holds no lanes and it has no move (R70; log 9, 11). -/
theorem hostMov_cases (mk : List Byte → OperandValue) (s : State) :
    (∃ t, hostMov mk s = .next t) ∨
      (((∃ v, s.result = .u64 v) ∨ ∃ v, s.result = .scalar v) ∧ hostMov mk s = .refused (.noMove .movOfNonLanes)) := by
  cases hr : s.result with
  | none => exact .inl ⟨_, hostMov_of_none mk hr⟩
  | lanes v => exact .inl ⟨_, hostMov_of_lanes mk hr⟩
  | u64 v => exact .inr ⟨.inl ⟨v, rfl⟩, hostMov_of_nonLanes mk (.inl ⟨v, hr⟩)⟩
  | scalar v => exact .inr ⟨.inr ⟨v, rfl⟩, hostMov_of_nonLanes mk (.inr ⟨v, hr⟩)⟩

/-- Settles O44. -/
theorem stepsStopOnlyWithoutMove : Obligations.StepsStopOnlyWithoutMove := by
  refine ⟨exists_exec_next, fun s => ?_⟩
  cases hpending : s.pending with
  | nil => exact .inl ⟨s, step_of_pending_nil hpending⟩
  | cons act rest =>
    rw [step_of_pending hpending]
    cases act with
    | wr v =>
      by_cases hv : withinCapacity s.params v
      · exact .inl ⟨_, hostWrite_of_fits hv⟩
      · exact .inr ⟨_, _, rfl, .inl ⟨v, rfl, hv, hostWrite_of_exceeds hv⟩⟩
    | wrCMD w => exact .inl (exists_execute_next w _)
    | rdSTATUS | rdKIND | reset => exact .inl ⟨_, rfl⟩
    | rdRESULT =>
      by_cases hr : s.result = .none
      · exact .inl ⟨_, hostReadResult_of_none hr⟩
      · exact .inl ⟨_, hostReadResult_of_ne_none hr⟩
    | rd x =>
      cases hx : readOperand { s with pending := rest } x with
      | none => exact .inl ⟨_, hostRead_of_none hx⟩
      | some v => exact .inl ⟨_, hostRead_of_some hx⟩
    | movA =>
      refine (hostMov_cases .a { s with pending := rest }).imp id fun hstop => ?_
      exact ⟨_, _, rfl, .inr (.inr (.inr (.inr (.inr ⟨.inl rfl, hstop⟩))))⟩
    | movB =>
      refine (hostMov_cases .b { s with pending := rest }).imp id fun hstop => ?_
      exact ⟨_, _, rfl, .inr (.inr (.inr (.inr (.inr ⟨.inr rfl, hstop⟩))))⟩
    | wrSTATUS v => exact .inr ⟨_, _, rfl, .inr (.inl ⟨v, rfl, rfl⟩)⟩
    | wrRESULT v => exact .inr ⟨_, _, rfl, .inr (.inr (.inl ⟨v, rfl, rfl⟩))⟩
    | rdCMD => exact .inr ⟨_, _, rfl, .inr (.inr (.inr (.inl ⟨rfl, rfl⟩)))⟩
    | wrLane x i v => exact .inr ⟨_, _, rfl, .inr (.inr (.inr (.inr (.inl ⟨x, i, v, rfl, rfl⟩))))⟩

/-! ## Several instances -/

/-- A platform steps by the step of one of its instances, whose state alone is replaced (R51, R166). -/
theorem stepInstance_eq_next_iff (k : Nat) (p q : Platform) :
    stepInstance k p = .next q ↔ ∃ s t, p[k]? = some s ∧ step s = .next t ∧ q = p.set k t := by
  unfold stepInstance
  cases hk : p[k]? with
  | none => simp
  | some s => cases hs : step s <;> simp [hs, eq_comm]

/-- Settles O47: writes of two different positions of the platform commute. -/
theorem instancesStepIndependently : Obligations.InstancesStepIndependently := by
  intro p q r j k hjk hj hk
  obtain ⟨s, s', hs, hstep, rfl⟩ := (stepInstance_eq_next_iff j p q).mp hj
  obtain ⟨t, t', ht, htstep, rfl⟩ := (stepInstance_eq_next_iff k _ r).mp hk
  rw [List.getElem?_set_ne hjk] at ht
  refine ⟨p.set k t', (stepInstance_eq_next_iff k p _).mpr ⟨t, t', ht, htstep, rfl⟩,
    (stepInstance_eq_next_iff j _ _).mpr ⟨s, s', ?_, hstep, List.set_comm _ _ hjk⟩⟩
  rwa [List.getElem?_set_ne hjk.symm]

end Sys2Proof.Proofs

namespace Sys2Proof.Proofs

open Sys2Proof.Machine Sys2Proof.Laws

/-! SUPPORT. The laws between the codec's operations (R85, R86, R89, R91). -/

/-! ## The byte orders -/

/-- Eight lanes are parsed (R86). -/
theorem opParsebe_of_length {a : List Byte} (h : a.length = 8) :
    opParsebe a = .ok (.u64 (BitVec.ofNat 64 (bigEndian a))) (sweepLanes .a 0 a).trace := by
  simp [opParsebe, h]

/-- Any other number of lanes is a LengthError (R86). -/
theorem opParsebe_of_length_ne {a : List Byte} (h : a.length ≠ 8) : opParsebe a = .lengthError := by
  simp [opParsebe, h]

/-- The big-endian number of eight lanes fits in 64 bits (R86). -/
theorem toNat_ofNat_bigEndian {a : List Byte} (h : a.length = 8) :
    (BitVec.ofNat 64 (bigEndian a)).toNat = bigEndian a := by
  have hlt := bigEndian_lt a
  rw [h] at hlt
  rw [BitVec.toNat_ofNat, Nat.mod_eq_of_lt hlt]

/-- Settles O20: the byte-order sum of R12 on eight lanes. -/
theorem parsebeReadsBigEndian : Obligations.ParsebeReadsBigEndian := by
  refine ⟨by decide, fun s a ha => ⟨fun hlen => ?_, fun hlen => ?_⟩⟩ <;> rw [exec_parsebe_of_written ha]
  · rw [opParsebe_of_length hlen]
    refine ⟨_, _, rfl, ?_⟩
    rw [toNat_ofNat_bigEndian hlen, bigEndian_eq_sum, hlen]
  · rw [opParsebe_of_length_ne hlen]
    exact ⟨[], rfl⟩

/-- The little-endian number of a reversed buffer is the buffer's big-endian number (R12). -/
theorem littleEndian_reverse (a : List Byte) : littleEndian a.reverse = bigEndian a := by
  induction a with
  | nil => rfl
  | cons x xs ih =>
    rw [List.reverse_cons, littleEndian_append, ih, List.length_reverse]
    simp only [littleEndian, bigEndian]
    ring

/-- A is what was last written to it (R34). -/
@[simp] theorem writeOperand_a_a (s : State) (v : List Byte) : (writeOperand s (.a v)).a = some v := rfl

/-- Settles O24. -/
theorem parseOrdersAgreeOnReversal : Obligations.ParseOrdersAgreeOnReversal := by
  intro s a ha hlen
  refine ⟨_, _, _, _, BitVec.ofNat 64 (bigEndian a), exec_parsebe_of_written ha, ?_, exec_revb_of_written ha,
    ⟨a.reverse, rfl, rfl⟩, exec_parsele_of_written (writeOperand_a_a _ _), ?_⟩
  · rw [opParsebe_of_length hlen, commit_ok_result]
  · rw [opParsele_of_length (List.length_reverse.trans hlen), commit_ok_result, littleEndian_reverse]

/-- Settles O25. -/
theorem revbIsInvolution : Obligations.RevbIsInvolution := by
  intro s x hx
  refine ⟨_, x.reverse, _, exec_revb_of_written hx, rfl, exec_revb_of_written (writeOperand_a_a _ _), ?_, rfl⟩
  rw [commit_ok_result, List.reverse_reverse]

/-! ## Bits and bytes -/

/-- Two buffers of one length are equal when their lanes are. -/
theorem eq_of_laneValue_eq {a b : List Byte} (hlen : a.length = b.length)
    (h : ∀ i, i < a.length → laneValue a i = laneValue b i) : a = b := by
  refine List.ext_getElem hlen fun i ha hb => BitVec.eq_of_toNat_eq ?_
  simpa only [laneValue, List.getD_eq_getElem _ _ ha, List.getD_eq_getElem _ _ hb] using h i ha

/-- Every lane is a byte (R10). -/
theorem laneValue_lt (a : List Byte) (i : Nat) : laneValue a i < 2 ^ 8 :=
  (a.getD i 0#8).isLt

/-- The lanes that B2BITS writes are 0 and 1 (R80). -/
theorem toNat_le_one_of_mem_flatMap_byteToBits {a : List Byte} {b : Byte} (hb : b ∈ a.flatMap byteToBits) :
    b.toNat ≤ 1 := by
  obtain ⟨v, -, hv⟩ := List.mem_flatMap.mp hb
  obtain ⟨m, -, rfl⟩ := List.mem_map.mp hv
  rw [BitVec.toNat_ofNat, bitOf]
  omega

/-- The weights of a number's low `n` bits add up to the number modulo `2^n` (R12). -/
theorem sum_bits_eq_mod (v n : Nat) : ((List.range n).map fun k => v / 2 ^ k % 2 * 2 ^ k).sum = v % 2 ^ n := by
  induction n with
  | zero => simp [Nat.mod_one]
  | succ n ih =>
    rw [List.range_succ, List.map_append, List.sum_append, ih, Nat.mod_pow_succ]
    simp
    ring

/-- A byte is the sum of its bits' weights, the most significant first (R83). -/
theorem sum_bits_of_byte {v : Nat} (h : v < 2 ^ 8) :
    ((List.range 8).map fun m => v / 2 ^ (7 - m) % 2 * 2 ^ (7 - m)).sum = v := by
  calc
    _ = ((List.range 8).map fun k => v / 2 ^ k % 2 * 2 ^ k).sum := by
      rw [← List.sum_reverse, ← List.map_reverse]
      rfl
    _ = v := by rw [sum_bits_eq_mod, Nat.mod_eq_of_lt h]

/-- Packing undoes expansion (R85). -/
theorem packBits_flatMap_byteToBits (a : List Byte) : packBits (a.flatMap byteToBits) = a := by
  have hlen : (packBits (a.flatMap byteToBits)).length = a.length := by
    rw [packBits_length, flatMap_byteToBits_length]
    omega
  refine eq_of_laneValue_eq hlen fun q hq => ?_
  rw [laneValue_packBits (packBits_length _ ▸ hq)]
  calc
    _ = ((List.range 8).map fun m => laneValue a q / 2 ^ (7 - m) % 2 * 2 ^ (7 - m)).sum := by
      refine congrArg List.sum (List.map_congr_left fun m hm => ?_)
      rw [laneValue_flatMap_byteToBits (hlen ▸ hq) (List.mem_range.mp hm), Nat.mod_mod]
    _ = laneValue a q := sum_bits_of_byte (laneValue_lt a q)

/-- Expansion undoes packing on bits: bit `7 - m` of a packed byte is its lane `m` (R85). -/
theorem flatMap_byteToBits_packBits {a : List Byte} (hlen : a.length % 8 = 0) (hbits : ∀ b ∈ a, b.toNat ≤ 1) :
    (packBits a).flatMap byteToBits = a := by
  have hlength : ((packBits a).flatMap byteToBits).length = a.length := by
    rw [flatMap_byteToBits_length, packBits_length]
    omega
  refine eq_of_laneValue_eq hlength fun i hi => ?_
  obtain ⟨k, m, hm, rfl⟩ : ∃ k m, m < 8 ∧ i = 8 * k + m := ⟨i / 8, i % 8, by omega, by omega⟩
  have hk : k < a.length / 8 := by omega
  have hbit := fun j => laneValue_le_one hbits (8 * k + j)
  have h0 := hbit 0
  have h1 := hbit 1
  have h2 := hbit 2
  have h3 := hbit 3
  have h4 := hbit 4
  have h5 := hbit 5
  have h6 := hbit 6
  have h7 := hbit 7
  rw [laneValue_flatMap_byteToBits (packBits_length a ▸ hk) hm, laneValue_packBits hk]
  simp only [List.range_succ, List.range_zero, List.nil_append, List.map_append, List.map_cons, List.map_nil,
    List.sum_append, List.sum_cons, List.sum_nil]
  interval_cases m <;> omega

/-- Settles O23. -/
theorem codecRoundTrip : Obligations.CodecRoundTrip := by
  refine ⟨fun s x hx hfits => ?_, fun s y hy hfits hlen hbits => ?_⟩
  · have hpack : opBits2b (x.flatMap byteToBits) = .ok (.lanes x) (sweepLanes .a 0 (x.flatMap byteToBits)).trace := by
      rw [opBits2b_of_bits (by rw [flatMap_byteToBits_length]; omega)
        fun b => toNat_le_one_of_mem_flatMap_byteToBits, packBits_flatMap_byteToBits]
    refine ⟨_, x.flatMap byteToBits, _, exec_b2bits_of_written hx, ?_,
      exec_bits2b_of_written (writeOperand_a_a _ _), ?_⟩
    · rw [opB2bits_of_fits hfits, commit_ok_result]
    · rw [hpack]
      exact ⟨rfl, rfl⟩
  · have hbytes : 8 * (packBits y).length = y.length := by
      rw [packBits_length]
      omega
    refine ⟨_, packBits y, _, exec_bits2b_of_written hy, ?_, exec_b2bits_of_written (writeOperand_a_a _ _), ?_⟩
    · rw [opBits2b_of_bits hlen hbits, commit_ok_result]
    · rw [opB2bits_of_fits (by simpa [hbytes] using hfits), flatMap_byteToBits_packBits hlen hbits]
      exact ⟨rfl, rfl⟩

end Sys2Proof.Proofs

namespace Sys2Proof.Proofs

open Sys2Proof.Machine Sys2Proof.Laws

/-! SUPPORT. The laws of the selector, the block operations and the counter (R107, R122, R133, R143). -/

/-! ## SELS and SELA -/

/-- Settles O29: both select at the same index of tables of one length. -/
theorem selsMatchesSelaOnOneLaneEntries : Obligations.SelsMatchesSelaOnOneLaneEntries := by
  intro s t k hw hts htb hk
  refine ⟨_, _, exec_sels_of_written hts hk, exec_sela_of_written htb hk, ?_⟩
  have hlen : ∀ d ∈ t.map fun x => [x], ∀ e ∈ t.map fun x => [x], d.length = e.length := by simp
  rcases Nat.lt_or_ge k.toNat t.length with hin | hout
  · have hx : t[k.toNat]? = some t[k.toNat] := List.getElem?_eq_getElem hin
    have hsels := opSels_of_scalar s.params.scalarW (k := k) (t := t.map BitVec.toNat) (x := t[k.toNat].toNat)
      (by simp [hx])
    have hsela := opSela_of_entry (k := k) (e := [t[k.toNat]]) hlen (by simp [hx])
    rw [hw, Nat.mod_eq_of_lt t[k.toNat].isLt] at hsels
    rw [hw, hsels, hsela]
    exact ⟨rfl, .inl ⟨_, hx, rfl, rfl, rfl⟩⟩
  · rw [opSels_of_outside _ (by simpa using hout), opSela_of_outside hlen (by simpa using hout)]
    exact ⟨rfl, .inr ⟨hout, rfl⟩⟩

/-! ## XOR -/

/-- The exclusive or of blocks does not depend on their order (R122). -/
theorem zipWith_xor_comm (a b : List Byte) : List.zipWith (· ^^^ ·) a b = List.zipWith (· ^^^ ·) b a :=
  List.zipWith_comm_of_comm BitVec.xor_comm

/-- The exclusive or with a buffer of the same length undoes itself (R122). -/
theorem zipWith_xor_cancel_left {a b : List Byte} (h : a.length = b.length) :
    List.zipWith (· ^^^ ·) a (List.zipWith (· ^^^ ·) a b) = b :=
  List.ext_getElem (by simp [h]) fun i _ _ => by simp

/-- The exclusive or of a buffer with itself is zero (R122). -/
theorem zipWith_xor_self (a : List Byte) : List.zipWith (· ^^^ ·) a a = List.replicate a.length 0#8 :=
  List.ext_getElem (by simp) fun i _ _ => by simp

/-- XOR of two blocks leaves their exclusive or in RESULT (R120). -/
theorem exec_xor_of_blocks {s : State} {a b : List Byte} (ha : s.a = some a) (hb : s.b = some b)
    (hla : a.length = 16) (hlb : b.length = 16) :
    ∃ t, exec .xor s = .next t ∧ t.result = .lanes (List.zipWith (· ^^^ ·) a b) :=
  ⟨_, exec_xor_of_written ha hb, by rw [opXor_of_length hla hlb, commit_ok_result]⟩

/-- Settles O31. -/
theorem xorLaws : Obligations.XorLaws := by
  intro s a b ha hb hla hlb
  have hlx : (List.zipWith (· ^^^ ·) a b).length = 16 := by simp [hla, hlb]
  obtain ⟨t, ht, htr⟩ := exec_xor_of_blocks ha hb hla hlb
  obtain ⟨u, hu, hur⟩ := exec_xor_of_blocks (s := { s with a := some b, b := some a }) rfl rfl hlb hla
  obtain ⟨v, hv, hvr⟩ := exec_xor_of_blocks (s := { s with b := some (List.zipWith (· ^^^ ·) a b) }) ha rfl hla hlx
  obtain ⟨w, hw, hwr⟩ := exec_xor_of_blocks (s := { s with b := some a }) ha rfl hla hla
  rw [zipWith_xor_comm] at hur
  rw [zipWith_xor_cancel_left (hla.trans hlb.symm)] at hvr
  rw [zipWith_xor_self, hla] at hwr
  exact ⟨_, t, u, v, w, ht, htr, hu, hur, hv, hvr, hw, hwr⟩

/-! ## MUX -/

/-- With selector 0 every lane is that of A (R133). -/
theorem zipWith_muxLane_zero {a b : List Byte} (h : a.length = b.length) : List.zipWith (muxLane 0#8) a b = a :=
  List.ext_getElem (by simp [h]) fun i _ _ => by simp [muxLane]

/-- With selector 1 every lane is that of B (R133). -/
theorem zipWith_muxLane_one {a b : List Byte} (h : a.length = b.length) : List.zipWith (muxLane 1#8) a b = b :=
  List.ext_getElem (by simp [h]) fun i _ _ => by simp [muxLane]

/-- The exclusive or with zero lanes changes nothing (R122). -/
theorem zipWith_xor_zero_left (b : List Byte) : List.zipWith (· ^^^ ·) (List.replicate b.length 0#8) b = b :=
  List.ext_getElem (by simp) fun i _ _ => by simp

/-- MUX of two blocks under a selector of 0 or 1 ends OK with the block it names (R133). -/
theorem exec_mux_of_blocks {s : State} {a b : List Byte} {sel : BitVec 8} (ha : s.a = some a) (hb : s.b = some b)
    (hsel : s.sel = some sel) (hla : a.length = 16) (hlb : b.length = 16) (hle : sel.toNat ≤ 1) :
    ∃ t, exec .mux s = .next t ∧ t.statusCode = codeOk ∧ t.result = .lanes (if sel = 0#8 then a else b) := by
  have hlen := hla.trans hlb.symm
  have hlanes : List.zipWith (muxLane sel) a b = if sel = 0#8 then a else b := by
    obtain rfl | rfl : sel = 0#8 ∨ sel = 1#8 := by bv_omega
    · rw [zipWith_muxLane_zero hlen, if_pos rfl]
    · rw [zipWith_muxLane_one hlen, if_neg (by decide)]
  refine ⟨_, exec_mux_of_written ha hb hsel, ?_⟩
  rw [opMux_of_sel_le hla hlb hle, hlanes]
  exact ⟨rfl, rfl⟩

/-- Settles O33. -/
theorem muxChoosesBlock : Obligations.MuxChoosesBlock := by
  refine ⟨fun s a b sel => exec_mux_of_blocks, fun s b ha hb hsel hlb => ?_⟩
  obtain ⟨t, ht, -, htr⟩ := exec_mux_of_blocks ha hb hsel List.length_replicate hlb (by decide)
  obtain ⟨u, hu, hur⟩ := exec_xor_of_blocks ha hb List.length_replicate hlb
  rw [← hlb, zipWith_xor_zero_left] at hur
  exact ⟨t, u, ht, hu, htr.trans hur.symm⟩

/-! ## Repeated increments -/

/-- One round of the host's loop of R143 on a counter block. -/
theorem incrementChain_succ {s : State} {a : List Byte} (ha : s.a = some a) (hlen : a.length = 16) (n : Nat) :
    ∃ t, t.a = some (nextCounterBlock a) ∧ incrementChain (n + 1) s = incrementChain n t := by
  refine ⟨writeOperand (commit s (opIncw a)) (.a (nextCounterBlock a)), rfl, ?_⟩
  simp [incrementChain, exec_incw_of_written ha, opIncw_of_length hlen]

/-- Settles O35, by induction on the number of increments. -/
theorem repeatedIncrementAddsCount : Obligations.RepeatedIncrementAddsCount := by
  intro n
  induction n with
  | zero =>
    intro s a ha hlen
    exact ⟨s, a, rfl, ha, hlen, rfl, by rw [Nat.add_zero, Nat.mod_eq_of_lt (counterValue_lt a)]⟩
  | succ n ih =>
    intro s a ha hlen
    obtain ⟨s', ha', hchain⟩ := incrementChain_succ ha hlen n
    obtain ⟨t, out, ht, hout, hlout, htake, hcount⟩ := ih s' _ ha' (nextCounterBlock_length hlen)
    refine ⟨t, out, hchain.trans ht, hout, hlout, htake.trans (take_nextCounterBlock hlen), ?_⟩
    rw [hcount, counterValue_nextCounterBlock hlen, Nat.mod_add_mod, Nat.add_assoc, Nat.add_comm 1 n]

end Sys2Proof.Proofs
